-- ==== Sys2Proof/Word.lean ====
section
/-! DEFINITION. The two bit-vector types whose width the spec fixes (00_scope.md R6, 30_encoding.md R70). -/

namespace Sys2Proof

/-- A transaction word `w[7:0]` (30_encoding.md R70). -/
abbrev TxWord := BitVec 8

/-- A channel state: level of pin A in bit 1, level of pin B in bit 0 (10_state.md R24, 40_decode_table.md R100). -/
abbrev ChanState := BitVec 2

end Sys2Proof
end

