-- ==== Sys2Proof/Config.lean ====
section
/-! DEFINITION. What an implementation fixes: the parameters of 00_scope.md R7 to R12 with the spec's defaults, the derived
widths of R11, and the one platform constant no rule reads (20_memory.md R51). -/

namespace Sys2Proof

/-- The implementation parameters (00_scope.md §4). Plain numbers: which values are legal is `Params.Legal`.
A machine carries its parameters in `State.params` (log entry 1), so a statement about every state covers every choice. -/
structure Params where
  /-- POS_WIDTH, default 32 (R7). -/
  posWidth : Nat := 32
  /-- DIAG_WIDTH, default 32 (R8). -/
  diagWidth : Nat := 32
  /-- TS_WIDTH, default 64 (R9). -/
  tsWidth : Nat := 64
  /-- TICK_NS, nanoseconds of one tick, default 1 (R9). Only its legal range is a rule; a period is counted in ticks. -/
  tickNs : Nat := 1
  /-- PIN_ID_WIDTH, default 8 (R10). -/
  pinIdWidth : Nat := 8
  /-- OBS_SINK, default false (R12). -/
  obsSink : Bool := false
  deriving DecidableEq, Repr

namespace Params

/-- The spec's default for every parameter (R7 to R12). -/
def default : Params := {}

/-- The legal values of the parameters (R7 to R10). Every Boolean is legal for OBS_SINK (R12). -/
abbrev Legal (p : Params) : Prop :=
  2 ≤ p.posWidth ∧ 1 ≤ p.diagWidth ∧ 1 ≤ p.tsWidth ∧ p.tickNs ≤ 1000 ∧ 1 ≤ p.pinIdWidth

/-- WDATA_WIDTH (R11). -/
abbrev wdataWidth (p : Params) : Nat := 2 * p.pinIdWidth

/-- RDATA_WIDTH (R11). -/
abbrev rdataWidth (p : Params) : Nat := max p.posWidth (max (p.tsWidth + 1) (2 * p.diagWidth))

end Params

/-- HOST_PORT_BASE: where a platform places the host port in its own address space (20_memory.md R51). No rule reads it and
the spec gives it no default, so it has no body (log entry 18). -/
opaque Config.hostPortBase : Nat

end Sys2Proof
end

