-- ==== Sys2Proof/Syntax.lean ====
section
/-! DEFINITION. The nine transactions of QDE-OPS as syntax, the two channels and the three ports (00_scope.md R3, R19). -/

namespace Sys2Proof

/-- The two channels (00_scope.md R6, R15). -/
inductive Channel where
  | A
  | B
  deriving DecidableEq, Repr

/-- The three transaction ports (00_scope.md R19). -/
inductive Port where
  | edgeA
  | edgeB
  | host
  deriving DecidableEq, Repr

/-- One constructor per row of spec/opcode_table.json, in the table's order (30_encoding.md R80). -/
inductive Instr where
  /-- GET_POSITION (43_host_ops.md R161). -/
  | getPosition
  /-- GET_DIRECTION (R162). -/
  | getDirection
  /-- GET_PERIOD (R163). -/
  | getPeriod
  /-- GET_DIAGNOSTICS (R164). -/
  | getDiagnostics
  /-- SET_ZERO (R165). -/
  | setZero
  /-- CONSTRUCT with its two pin identifiers, unsigned (44_lifecycle.md R190, 30_encoding.md R77, R84). -/
  | construct (pinA pinB : Nat)
  /-- DESTROY (44_lifecycle.md R194). -/
  | destroy
  /-- EDGE_A with the sampled levels of pins A and B, true for High (42_edge_events.md R141, 30_encoding.md R74). -/
  | edgeA (la lb : Bool)
  /-- EDGE_B with the sampled levels (42_edge_events.md R142). -/
  | edgeB (la lb : Bool)
  deriving DecidableEq, Repr

end Sys2Proof
end

