-- ==== Sys2Proof/WellFormed.lean ====
section
/-! DEFINITION. Which instructions are operands that a word and its write data can hold. The only operands that can fail are
CONSTRUCT's pin identifiers, PIN_ID_WIDTH bits each (30_encoding.md R77, R84). -/

namespace Sys2Proof

/-- The operands fit their fields (30_encoding.md R84). -/
def Instr.wellFormed (p : Params) : Instr → Bool
  | .getPosition => true
  | .getDirection => true
  | .getPeriod => true
  | .getDiagnostics => true
  | .setZero => true
  | .construct pinA pinB => decide (pinA < 2 ^ p.pinIdWidth) && decide (pinB < 2 ^ p.pinIdWidth)
  | .destroy => true
  | .edgeA _ _ => true
  | .edgeB _ _ => true

end Sys2Proof
end

