-- ==== Sys2Proof/Decode.lean ====
section
/-! DEFINITION. The decoder of 30_encoding.md R81, total on every port and every 8-bit word and rejecting by name (R82), and
after it the encoder, written from the opcode map R80 and the syntax table R85. -/

namespace Sys2Proof

/-! ### Fields of a word (R71 to R74) -/

/-- `w[7:6]`, the class (R71). -/
def classField (w : TxWord) : BitVec 2 := w.extractLsb' 6 2

/-- `w[5:0]`, the function of a query or control word (R72, R73). -/
def fnField (w : TxWord) : BitVec 6 := w.extractLsb' 0 6

/-- `w[5:3]`, the reserved field of an edge word, 0b000 (R74). -/
def rsvField (w : TxWord) : BitVec 3 := w.extractLsb' 3 3

/-- `w[2]`, the channel of an edge word: false is A, true is B (R74). -/
def chField (w : TxWord) : Bool := w.getLsbD 2

/-- `w[1]`, the level of pin A in an edge word (R74). -/
def laField (w : TxWord) : Bool := w.getLsbD 1

/-- `w[0]`, the level of pin B in an edge word (R74). -/
def lbField (w : TxWord) : Bool := w.getLsbD 0

/-- `pin_a = wdata[PIN_ID_WIDTH-1:0]`, unsigned (R77). -/
def pinAField (p : Params) (wdata : BitVec p.wdataWidth) : Nat := (wdata.extractLsb' 0 p.pinIdWidth).toNat

/-- `pin_b = wdata[2*PIN_ID_WIDTH-1:PIN_ID_WIDTH]`, unsigned (R77). -/
def pinBField (p : Params) (wdata : BitVec p.wdataWidth) : Nat :=
  (wdata.extractLsb' p.pinIdWidth p.pinIdWidth).toNat

/-! ### Decoding -/

/-- Why a word is illegal on a port (R75, R82). Every one of them is the spec's ILLEGAL; the names only say which part of R82
applies. -/
inductive Illegal where
  /-- A query word with function 4 to 63, on the host port. -/
  | reservedQuery (fn : BitVec 6)
  /-- A control word with function 3 to 63, on the host port. -/
  | reservedControl (fn : BitVec 6)
  /-- An edge-class word on the host port: the host cannot inject an edge. -/
  | edgeWordOnHost
  /-- A word of the reserved class 0b11, on any port (R75). -/
  | reservedClass
  /-- On an edge port, a word other than that port's own four. -/
  | notThisPortsWord
  deriving DecidableEq, Repr

/-- Format Q (R72). -/
def decodeQuery (w : TxWord) : Except Illegal Instr :=
  match (fnField w).toNat with
  | 0 => .ok .getPosition
  | 1 => .ok .getDirection
  | 2 => .ok .getPeriod
  | 3 => .ok .getDiagnostics
  | _ => .error (.reservedQuery (fnField w))

/-- Format C (R73). -/
def decodeControl (p : Params) (w : TxWord) (wdata : BitVec p.wdataWidth) : Except Illegal Instr :=
  match (fnField w).toNat with
  | 0 => .ok .setZero
  | 1 => .ok (.construct (pinAField p wdata) (pinBField p wdata))
  | 2 => .ok .destroy
  | _ => .error (.reservedControl (fnField w))

/-- The host port decodes classes 0b00 and 0b01 (R71, R81, R82). -/
def decodeHost (p : Params) (w : TxWord) (wdata : BitVec p.wdataWidth) : Except Illegal Instr :=
  match (classField w).toNat with
  | 0 => decodeQuery w
  | 1 => decodeControl p w wdata
  | 2 => .error .edgeWordOnHost
  | _ => .error .reservedClass

/-- An edge port decodes format E with its own channel bit and `rsv = 0b000` (R74, R76, R81). -/
def decodeEdge (channelBit : Bool) (edge : Bool → Bool → Instr) (w : TxWord) : Except Illegal Instr :=
  match (classField w).toNat with
  | 2 =>
    if rsvField w = 0 ∧ chField w = channelBit then .ok (edge (laField w) (lbField w))
    else .error .notThisPortsWord
  | 3 => .error .reservedClass
  | _ => .error .notThisPortsWord

/-- `decode(port, w)` of R81; the write data is read by CONSTRUCT alone (R77). -/
def decode (p : Params) (port : Port) (w : TxWord) (wdata : BitVec p.wdataWidth) : Except Illegal Instr :=
  match port with
  | .host => decodeHost p w wdata
  | .edgeA => decodeEdge false .edgeA w
  | .edgeB => decodeEdge true .edgeB w

/-! ### Encoding -/

/-- The port that issues an instruction (R80). -/
def portOf : Instr → Port
  | .getPosition => .host
  | .getDirection => .host
  | .getPeriod => .host
  | .getDiagnostics => .host
  | .setZero => .host
  | .construct _ _ => .host
  | .destroy => .host
  | .edgeA _ _ => .edgeA
  | .edgeB _ _ => .edgeB

/-- The word `base + 2*la + lb` of an edge (R85). -/
def edgeWord (base : Nat) (la lb : Bool) : TxWord := BitVec.ofNat 8 (base + 2 * la.toNat + lb.toNat)

/-- The word of an instruction (R80, R85). -/
def encodeWord : Instr → TxWord
  | .getPosition => 0x00
  | .getDirection => 0x01
  | .getPeriod => 0x02
  | .getDiagnostics => 0x03
  | .setZero => 0x40
  | .construct _ _ => 0x41
  | .destroy => 0x42
  | .edgeA la lb => edgeWord 0x80 la lb
  | .edgeB la lb => edgeWord 0x84 la lb

/-- The write data of an instruction: pin_b above pin_a for CONSTRUCT (R85), zeros for the words that ignore it (R77). -/
def encodeWdata (p : Params) : Instr → BitVec p.wdataWidth
  | .construct pinA pinB => BitVec.ofNat _ (pinB * 2 ^ p.pinIdWidth + pinA)
  | .getPosition => 0
  | .getDirection => 0
  | .getPeriod => 0
  | .getDiagnostics => 0
  | .setZero => 0
  | .destroy => 0
  | .edgeA _ _ => 0
  | .edgeB _ _ => 0

/-- What a port presents for one instruction: the port, the word and its write data. -/
structure Presented (p : Params) where
  port : Port
  word : TxWord
  wdata : BitVec p.wdataWidth
  deriving DecidableEq, Repr

/-- The encoder: port, word and write data of a well-formed instruction. -/
def encode (p : Params) (i : Instr) : Presented p := ⟨portOf i, encodeWord i, encodeWdata p i⟩

/-! ### The assembler (R85) -/

/-- A level operand as R85 writes it. -/
def levelText (l : Bool) : String := if l then "1" else "0"

/-- The mnemonic of a line (R85). -/
def mnemonicText : Instr → String
  | .getPosition => "GET_POSITION"
  | .getDirection => "GET_DIRECTION"
  | .getPeriod => "GET_PERIOD"
  | .getDiagnostics => "GET_DIAGNOSTICS"
  | .setZero => "SET_ZERO"
  | .construct _ _ => "CONSTRUCT"
  | .destroy => "DESTROY"
  | .edgeA _ _ => "EDGE_A"
  | .edgeB _ _ => "EDGE_B"

/-- The operands of a line, comma-separated (R85). -/
def operandText : Instr → String
  | .construct pinA pinB => " " ++ toString pinA ++ ", " ++ toString pinB
  | .edgeA la lb => " " ++ levelText la ++ ", " ++ levelText lb
  | .edgeB la lb => " " ++ levelText la ++ ", " ++ levelText lb
  | .getPosition | .getDirection | .getPeriod | .getDiagnostics | .setZero | .destroy => ""

/-- The line of a transaction: its mnemonic, then its operands (R85). -/
def assemblyLine (i : Instr) : String := mnemonicText i ++ operandText i

/-- A line of a program listing: it may carry `@t`, the time input at acceptance (R85). -/
def listingLine (i : Instr) : Option Nat → String
  | none => assemblyLine i
  | some t => assemblyLine i ++ " @" ++ toString t

/-- The value of a digit, decimal or hexadecimal. -/
def digitValue (c : Char) : Nat :=
  if c.isDigit then c.toNat - 48 else if c.isUpper then c.toNat - 55 else c.toNat - 87

/-- A hexadecimal digit. -/
def isHexDigit (c : Char) : Bool := c.isDigit || "ABCDEFabcdef".toList.contains c

/-- The value of digits in a base, most significant first. -/
def digitsValue (base : Nat) (cs : List Char) : Nat := cs.foldl (fun n c => base * n + digitValue c) 0

/-- A number: decimal digits, or `0x` and hexadecimal digits (log entry 23). -/
def numberOf (cs : List Char) : Option Nat :=
  match cs with
  | [] => none
  | '0' :: 'x' :: h :: hs => if (h :: hs).all isHexDigit then some (digitsValue 16 (h :: hs)) else none
  | d :: ds => if (d :: ds).all Char.isDigit then some (digitsValue 10 (d :: ds)) else none

/-- The pieces between commas. -/
def commaPieces : List Char → List (List Char)
  | [] => [[]]
  | c :: cs =>
    if c = ',' then [] :: commaPieces cs
    else
      match commaPieces cs with
      | [] => [[c]]
      | piece :: rest => (c :: piece) :: rest

/-- The operands' numbers: none of them for an empty text. -/
def operandsOf (cs : List Char) : Option (List Nat) :=
  match cs with
  | [] => some []
  | c :: rest => (commaPieces (c :: rest)).mapM numberOf

/-- A level operand, 0 or 1. -/
def levelOf (n : Nat) : Option Bool := if n = 0 then some false else if n = 1 then some true else none

/-- The transaction of a mnemonic and its operands; R85's nine forms and no pseudo-instruction. -/
def instrOf (name : List Char) (operands : List Nat) : Option Instr :=
  match operands with
  | [] =>
    if name = "GET_POSITION".toList then some .getPosition
    else if name = "GET_DIRECTION".toList then some .getDirection
    else if name = "GET_PERIOD".toList then some .getPeriod
    else if name = "GET_DIAGNOSTICS".toList then some .getDiagnostics
    else if name = "SET_ZERO".toList then some .setZero
    else if name = "DESTROY".toList then some .destroy
    else none
  | [x, y] =>
    if name = "CONSTRUCT".toList then some (.construct x y)
    else
      match levelOf x, levelOf y with
      | some la, some lb =>
        if name = "EDGE_A".toList then some (.edgeA la lb)
        else if name = "EDGE_B".toList then some (.edgeB la lb)
        else none
      | _, _ => none
  | _ => none

/-- The `@t` of a line: only an edge line carries one (R85). -/
def timeOf (i : Instr) (cs : List Char) : Option (Option Nat) :=
  match cs with
  | [] => some none
  | _ :: digits =>
    match i with
    | .edgeA _ _ | .edgeB _ _ => (numberOf digits).map some
    | .getPosition | .getDirection | .getPeriod | .getDiagnostics | .setZero | .construct _ _ | .destroy => none

/-- The transaction and the `@t` of a line without comment and leading blanks: the mnemonic runs to the first blank, and
blanks after it only separate (log entry 23). -/
def assembleChars (cs : List Char) : Option (Instr × Option Nat) := do
  let rest := (cs.dropWhile (· ≠ ' ')).filter (· ≠ ' ')
  let operands ← operandsOf (rest.takeWhile (· ≠ '@'))
  let i ← instrOf (cs.takeWhile (· ≠ ' ')) operands
  let t ← timeOf i (rest.dropWhile (· ≠ '@'))
  pure (i, t)

/-- The assembler: a line, whose comment starts at `;`, to its transaction and its `@t` (R85). The words are `encode`'s. -/
def assemble (line : String) : Option (Instr × Option Nat) :=
  assembleChars ((line.toList.takeWhile (· ≠ ';')).dropWhile (· = ' '))

/-! ### Words of the opcode table -/

/-- The port a word of the opcode table belongs to: an edge-class word goes to the edge port of its channel bit, every other
word to the host port (R71, R74, R80). -/
def portOfWord (w : TxWord) : Port :=
  if classField w = 0b10 then (if chField w then .edgeB else .edgeA) else .host

/-- The transaction word of a table word: its lowest eight bits. -/
def tableWord (nbits w : Nat) : TxWord := BitVec.ofNat 8 (w % 2 ^ nbits)

/-- The write data of a table word: the bits above the eight of the word, zero where the table gives none (log entry 14). -/
def tableWdata (p : Params) (nbits w : Nat) : BitVec p.wdataWidth := BitVec.ofNat _ (w % 2 ^ nbits / 256)

/-- What the decoder reads from an opcode-table word under the default parameters (log entry 14). -/
def decodeTableWord (nbits w : Nat) : Option Instr :=
  match decode .default (portOfWord (tableWord nbits w)) (tableWord nbits w) (tableWdata .default nbits w) with
  | .ok i => some i
  | .error _ => none

end Sys2Proof
end

