-- ==== Sys2Proof/Machine/State.lean ====
section
/-! DEFINITION. The machine's state as plain data: the engine's registers, exactly those of 10_state.md R20, and what stands at
its boundary (presented words, the environment's schedule, input values, the last step's output). Fault and refusal reasons,
and the state after reset (10_state.md R39). -/

namespace Sys2Proof.Machine

/-- A thing held once per channel, indexed `x[A]` and `x[B]` (00_scope.md R15). -/
structure PerChannel (α : Type) where
  a : α
  b : α
  deriving DecidableEq, Repr

/-- LIFE: Unconstructed is 0, Active is 1 (10_state.md R20, R33). -/
inductive Life where
  | unconstructed
  | active
  deriving DecidableEq, Repr

/-- DIR: Clockwise is 0, CounterClockwise is 1 (10_state.md R27). -/
inductive Dir where
  | clockwise
  | counterClockwise
  deriving DecidableEq, Repr

/-- An entry of the decode table: -1, 0 or +1 and nothing else (00_scope.md R6, 10_state.md R36). -/
inductive GrayStep where
  | reverse
  | zero
  | forward
  deriving DecidableEq, Repr

/-- The engine's registers, the whole table of 10_state.md R20. "No other state exists." -/
structure Engine (p : Params) where
  /-- LIFE. -/
  life : Life
  /-- PIN[A], PIN[B]. -/
  pin : PerChannel (BitVec p.pinIdWidth)
  /-- PREV[A], PREV[B]. -/
  prev : PerChannel ChanState
  /-- POS, two's complement. -/
  pos : BitVec p.posWidth
  /-- DIR. -/
  dir : Dir
  /-- PT_PHASE: false is 0 (the next call is odd-numbered), true is 1 (even-numbered) (R28). -/
  ptPhase : Bool
  /-- PT_STAMP. -/
  ptStamp : BitVec p.tsWidth
  /-- PERIOD. -/
  period : BitVec p.tsWidth
  /-- PERIOD_VALID. -/
  periodValid : Bool
  /-- DIAG[A], DIAG[B]. -/
  diag : PerChannel (BitVec p.diagWidth)
  deriving DecidableEq, Repr

/-- Every register at its power-on value (10_state.md R39). -/
def Engine.powerOn (p : Params) : Engine p where
  life := .unconstructed
  pin := ⟨0, 0⟩
  prev := ⟨0, 0⟩
  pos := 0
  dir := .clockwise
  ptPhase := false
  ptStamp := 0
  period := 0
  periodValid := false
  diag := ⟨0, 0⟩

/-- The status of a host-port response (60_exceptions.md R210). -/
inductive Status where
  | ok
  | hwUnavailable
  | errState
  | illegal
  deriving DecidableEq, Repr

/-- The response of a host-port transaction (30_encoding.md R78). -/
structure Response (p : Params) where
  status : Status
  rdata : BitVec p.rdataWidth
  deriving DecidableEq, Repr

/-- The edge mode of a claim: always both edges (60_exceptions.md R223). -/
inductive EdgeMode where
  | both
  deriving DecidableEq, Repr

/-- A record emitted to an external interface (00_scope.md R17): the Edge Source (60_exceptions.md R223) or the observability
sink (R230). -/
inductive Emission (p : Params) where
  | claim (pin : BitVec p.pinIdWidth) (mode : EdgeMode)
  | release (pin : BitVec p.pinIdWidth)
  | obs (word : TxWord) (value : BitVec p.rdataWidth)
  deriving DecidableEq, Repr

/-- What the last step put out: the port whose word was accepted, the response (none for an edge port, 30_encoding.md R78) and
the emitted records in order (00_scope.md R19, log entry 10). -/
structure Outputs (p : Params) where
  accepted : Option Port
  response : Option (Response p)
  emitted : List (Emission p)
  deriving DecidableEq, Repr

/-- Nothing accepted, answered or emitted. -/
def Outputs.silent (p : Params) : Outputs p := ⟨none, none, []⟩

/-- The values of the engine's inputs in the present cycle (60_exceptions.md R226): the free-running tick count T whose low
bits are NOW (R224), the levels of pins A and B (30_encoding.md R76), and the Edge Source's answers to the claims of channel A
and channel B should they be made (00_scope.md R18). -/
structure Inputs where
  tick : Nat
  levelA : Bool
  levelB : Bool
  grantA : Bool
  grantB : Bool
  deriving DecidableEq, Repr

/-- One cycle of the environment's schedule (log entries 2, 5, 6, 8): whether `rst` is asserted and whether the Edge Source is
reset with it (70_reset_and_hazards.md R240, R252), the arbiter's choice of port (20_memory.md R57), the ticks that pass before
it, and the input values it drives. -/
structure Cycle where
  rst : Bool
  edgeSourceRst : Bool
  accept : Option Port
  elapsed : Nat
  levelA : Bool
  levelB : Bool
  grantA : Bool
  grantB : Bool
  deriving DecidableEq, Repr

/-- A word with its write data, as the host presents it (30_encoding.md R70). -/
structure HostRequest (p : Params) where
  word : TxWord
  wdata : BitVec p.wdataWidth
  deriving DecidableEq, Repr

/-- The events at the edge ports and the host's requests, oldest first (20_memory.md R57, 60_exceptions.md R222). A port presents
its oldest entry alone. An edge port's entry has its level bits filled in at acceptance (30_encoding.md R76, log entry 4). The
host's next request is presented only after the response to its oldest, which comes in the step that accepts it
(60_exceptions.md R225, log entry 16). -/
structure Ports (p : Params) where
  edgeA : List TxWord
  edgeB : List TxWord
  host : List (HostRequest p)
  deriving DecidableEq, Repr

/-- The Edge Source's registrations made by this engine, without repeats (10_state.md R40, log entry 7). -/
structure EdgeSource (p : Params) where
  registered : List (BitVec p.pinIdWidth)
  deriving DecidableEq, Repr

/-- The engine and its boundary under the parameters `p`. -/
structure Body (p : Params) where
  eng : Engine p
  edgeSource : EdgeSource p
  ports : Ports p
  cycles : List Cycle
  inp : Inputs
  out : Outputs p
  deriving DecidableEq, Repr

/-- The machine's state: the parameters, which nothing writes (log entry 1), and the engine with its boundary. -/
structure State where
  params : Params
  body : Body params
  deriving DecidableEq, Repr

/-- Why the machine stops. -/
inductive Fault where
  /-- The fatal assertion of 40_decode_table.md R106 (60_exceptions.md R216, 93_implementation_defined.md I1): a decode-table
  index outside 0 to 15. Raised by `edgeEvent` when `DT` has no entry; no state reaches it, since an index is made of two 2-bit
  values. Safe. -/
  | invalidTableIndex (index : Nat)
  deriving DecidableEq, Repr

/-- Why an instruction has no meaning. -/
inductive Refusal where
  /-- Raised by `exec`'s arm of an instruction that has no meaning yet; no arm is such. Safe. -/
  | notModelled (mnemonic : String)
  deriving DecidableEq, Repr

/-- The machine right after power-on reset (10_state.md R39, 70_reset_and_hazards.md R240, R241): default parameters, every
register at its power-on value, nothing presented and nothing scheduled (log entries 1, 2, 5, 6, 7, 10). -/
def State.reset : State where
  params := .default
  body :=
    { eng := .powerOn .default
      edgeSource := ⟨[]⟩
      ports := ⟨[], [], []⟩
      cycles := []
      inp := ⟨0, false, false, false, false⟩
      out := .silent .default }

end Sys2Proof.Machine
end

