-- ==== Sys2Proof/Machine/Operands.lean ====
section
/-! DEFINITION. Operand assembly: per-channel indexing, the channel state of an edge, CONSTRUCT's pins, the time input and the
level bits an edge port fills in. -/

namespace Sys2Proof.Machine

/-- `x[c]` (00_scope.md R15). -/
def PerChannel.get {α : Type} (x : PerChannel α) : Channel → α
  | .A => x.a
  | .B => x.b

/-- `x[c] <- v` (00_scope.md R15). -/
def PerChannel.set {α : Type} (x : PerChannel α) (c : Channel) (v : α) : PerChannel α :=
  match c with
  | .A => { x with a := v }
  | .B => { x with b := v }

/-- `cur = {la, lb}`: level of pin A in the high bit, pin B in the low bit (30_encoding.md R84, 40_decode_table.md R100). -/
def channelState (la lb : Bool) : ChanState := BitVec.ofBool la ++ BitVec.ofBool lb

/-- A pin identifier, PIN_ID_WIDTH bits unsigned (30_encoding.md R84); a number too large for the field is truncated
(log entry 12). -/
def pinOperand (p : Params) (n : Nat) : BitVec p.pinIdWidth := BitVec.ofNat _ n

/-- NOW: the low TS_WIDTH bits of the tick count (60_exceptions.md R224). -/
def Inputs.now (p : Params) (inp : Inputs) : BitVec p.tsWidth := BitVec.ofNat _ inp.tick

/-- The word an edge port presents at acceptance: `la` and `lb` from the level inputs, the other bits as they are
(30_encoding.md R74, R76). -/
def fillLevels (la lb : Bool) (w : TxWord) : TxWord := w.extractLsb' 2 6 ++ channelState la lb

end Sys2Proof.Machine
end

