-- ==== Sys2Proof/Machine/Flags.lean ====
section
/-! DEFINITION. The single-bit registers and the status codes as bits, and the rule by which DIR follows a step. The engine has
no condition codes (10_state.md R34). -/

namespace Sys2Proof.Machine

/-- The value -1, 0 or +1 of a table entry (40_decode_table.md R102). -/
def GrayStep.toInt : GrayStep → Int
  | .reverse => -1
  | .zero => 0
  | .forward => 1

/-- DIR as its bit (10_state.md R27). -/
def Dir.bit : Dir → BitVec 1
  | .clockwise => 0
  | .counterClockwise => 1

/-- LIFE as its bit (10_state.md R33). -/
def Life.bit : Life → BitVec 1
  | .unconstructed => 0
  | .active => 1

/-- DIR after a step: Clockwise on +1, CounterClockwise on -1, unchanged on 0 (10_state.md R27, 42_edge_events.md R149). -/
def dirAfter (d : Dir) : GrayStep → Dir
  | .forward => .clockwise
  | .reverse => .counterClockwise
  | .zero => d

/-- The 2-bit status code (60_exceptions.md R210). -/
def Status.code : Status → BitVec 2
  | .ok => 0
  | .hwUnavailable => 1
  | .errState => 2
  | .illegal => 3

/-- A response as one vector, status above rdata (30_encoding.md R78). -/
def Response.bits {p : Params} (r : Response p) : BitVec (2 + p.rdataWidth) := r.status.code ++ r.rdata

end Sys2Proof.Machine
end

