-- ==== Sys2Proof/Machine/Ops.lean ====
section
/-! DEFINITION. The shared operations over the state: responding, raising an error, emitting records, claiming and releasing
pins, power-on reset, and turning a meaning's result into an outcome. The engine has no trap entry and no trap return
(60_exceptions.md R219, R220): an error is a response, and `raise` is the one operation that gives it. -/

namespace Sys2Proof.Machine

variable {p : Params}

/-- `emit(rec)`: the record joins the transaction's emitted records in order (00_scope.md R17). -/
def Body.emit (r : Emission p) (b : Body p) : Body p :=
  { b with out := { b.out with emitted := b.out.emitted ++ [r] } }

/-- `respond(status, rdata)` (00_scope.md R17, 30_encoding.md R78). -/
def Body.respond (st : Status) (rdata : BitVec p.rdataWidth) (b : Body p) : Body p :=
  { b with out := { b.out with response := some ⟨st, rdata⟩ } }

/-- `raise E`: `respond(code(E), 0)` with no register written (00_scope.md R17, 60_exceptions.md R210). -/
def Body.raise (e : Status) (b : Body p) : Body p := b.respond e 0

/-- `emit(claim(pin, Both))` with the Edge Source's answer; a granted pin is then registered (60_exceptions.md R223, log
entry 7). -/
def Body.claim (pin : BitVec p.pinIdWidth) (granted : Bool) (b : Body p) : Body p :=
  let b' := b.emit (.claim pin .both)
  if granted then { b' with edgeSource := ⟨b'.edgeSource.registered.insert pin⟩ } else b'

/-- `emit(release(pin))`: the pin is then not registered; releasing one that is not has no effect (60_exceptions.md R223, log
entry 7). -/
def Body.release (pin : BitVec p.pinIdWidth) (b : Body p) : Body p :=
  let b' := b.emit (.release pin)
  { b' with edgeSource := ⟨b'.edgeSource.registered.filter (fun q => decide (q ≠ pin))⟩ }

/-- `if OBS_SINK: emit(obs(word, value))` (60_exceptions.md R230). -/
def Body.observe (word : TxWord) (value : BitVec p.rdataWidth) (b : Body p) : Body p :=
  if p.obsSink then b.emit (.obs word value) else b

/-- Every register to its power-on value (10_state.md R39). -/
def Body.clearRegisters (b : Body p) : Body p := { b with eng := .powerOn p }

/-- A cycle with `rst` asserted: every register takes its power-on value, nothing is accepted and nothing is emitted; the Edge
Source forgets its registrations only when the platform resets it too (70_reset_and_hazards.md R240, R252). -/
def Body.powerOnReset (edgeSourceToo : Bool) (b : Body p) : Body p :=
  { b.clearRegisters with edgeSource := if edgeSourceToo then ⟨[]⟩ else b.edgeSource }

/-- A word outside the opcode map: ILLEGAL on the host port, dropped on an edge port (60_exceptions.md R215). -/
def Body.illegalWord (port : Port) (b : Body p) : Body p :=
  match port with
  | .host => b.raise .illegal
  | .edgeA => b
  | .edgeB => b

/-- The outcome of a meaning: the next state, or the fault it ends in. -/
def State.finish (s : State) (r : Except Fault (Body s.params)) : Host.Outcome State Fault Refusal :=
  match r with
  | .ok b => .next { s with body := b }
  | .error f => .fault f

end Sys2Proof.Machine
end

