-- ==== Sys2Proof/Machine/DecodeTable.lean ====
section
/-! DEFINITION. The decode table: 16 constants, read by `DT(i)` (40_decode_table.md). -/

namespace Sys2Proof.Machine

/-- The 16 constants in index order (40_decode_table.md R103); immutable (R104). -/
def decodeTable : List GrayStep :=
  [.zero, .forward, .reverse, .zero,
   .reverse, .zero, .zero, .forward,
   .forward, .zero, .zero, .reverse,
   .zero, .reverse, .forward, .zero]

/-- `DT(i)`; no value for an index outside 0 to 15 (40_decode_table.md R102, R106). -/
def DT (i : Nat) : Option GrayStep := decodeTable[i]?

/-- The index `uval(PREV[c]) * 4 + uval(cur)` (40_decode_table.md R102, 42_edge_events.md R140). -/
def tableIndex (prev cur : ChanState) : Nat := prev.toNat * 4 + cur.toNat

end Sys2Proof.Machine
end

