-- ==== Sys2Proof/Machine/PulseTimer.lean ====
section
/-! DEFINITION. The pulse timer's one operation (41_pulse_timer.md). -/

namespace Sys2Proof.Machine

variable {p : Params}

/-- `trunc_TS_WIDTH(uval(now) - uval(PT_STAMP))` (41_pulse_timer.md R121, R123). -/
def duration (now stamp : BitVec p.tsWidth) : BitVec p.tsWidth := BitVec.ofInt _ ((now.toNat : Int) - (stamp.toNat : Int))

/-- `RecordEdge(now)`: an odd-numbered call stores the timestamp and returns nothing; an even-numbered call publishes the
duration since it and returns it (41_pulse_timer.md R121). -/
def recordEdge (now : BitVec p.tsWidth) (e : Engine p) : Option (BitVec p.tsWidth) × Engine p :=
  match e.ptPhase with
  | false => (none, { e with ptStamp := now, ptPhase := true })
  | true =>
    let d := duration now e.ptStamp
    (some d, { e with period := d, periodValid := true, ptPhase := false })

end Sys2Proof.Machine
end

