-- ==== Sys2Proof/Machine/EdgeEvents.lean ====
section
/-! DEFINITION. EDGE_A and EDGE_B over their common body (42_edge_events.md). -/

namespace Sys2Proof.Machine

variable {p : Params}

/-- Step 4: POS adds the step modulo 2^POS_WIDTH and DIR follows its sign, both only when the step is not zero
(42_edge_events.md R140, R150). -/
def Engine.applyStep (st : GrayStep) (e : Engine p) : Engine p :=
  match st with
  | .zero => e
  | .forward | .reverse => { e with pos := BitVec.ofInt _ (e.pos.toInt + st.toInt), dir := dirAfter e.dir st }

/-- Step 5: `PREV[c] <- cur`. -/
def Engine.setPrev (c : Channel) (cur : ChanState) (e : Engine p) : Engine p := { e with prev := e.prev.set c cur }

/-- Step 7: `DIAG[c] <- trunc(uval(DIAG[c]) + 1)` (42_edge_events.md R151). -/
def Engine.countEdge (c : Channel) (e : Engine p) : Engine p :=
  { e with diag := e.diag.set c (BitVec.ofNat _ ((e.diag.get c).toNat + 1)) }

/-- Steps 4 to 7 of an edge whose step is `st`. -/
def Engine.afterEdge (c : Channel) (cur : ChanState) (now : BitVec p.tsWidth) (st : GrayStep) (e : Engine p) : Engine p :=
  (recordEdge now ((e.applyStep st).setPrev c cur)).2.countEdge c

/-- `EdgeEvent(c, cur, now)` (42_edge_events.md R140). While not Active the edge is dropped (R144). -/
def edgeEvent (c : Channel) (cur : ChanState) (now : BitVec p.tsWidth) (e : Engine p) : Except Fault (Engine p) :=
  match e.life with
  | .unconstructed => .ok e
  | .active =>
    match DT (tableIndex (e.prev.get c) cur) with
    | some st => .ok (e.afterEdge c cur now st)
    | none => .error (.invalidTableIndex (tableIndex (e.prev.get c) cur))

/-- The edge transaction of a channel on the whole state: no response, no emission (42_edge_events.md R140). -/
def edgeTransaction (c : Channel) (la lb : Bool) (s : State) : Host.Outcome State Fault Refusal :=
  s.finish ((edgeEvent c (channelState la lb) (s.body.inp.now s.params) s.body.eng).map (fun e => { s.body with eng := e }))

/-- EDGE_A (42_edge_events.md R141). -/
def execEdgeA (la lb : Bool) (s : State) : Host.Outcome State Fault Refusal := edgeTransaction .A la lb s

/-- EDGE_B (42_edge_events.md R142). -/
def execEdgeB (la lb : Bool) (s : State) : Host.Outcome State Fault Refusal := edgeTransaction .B la lb s

end Sys2Proof.Machine
end

