-- ==== Sys2Proof/Machine/HostOps.lean ====
section
/-! DEFINITION. The four queries and SET_ZERO (43_host_ops.md). -/

namespace Sys2Proof.Machine

variable {p : Params}

/-- `if LIFE != Active: raise ERR_STATE`, else the operation (43_host_ops.md R160). -/
def Body.whenActive (f : Body p → Body p) (b : Body p) : Body p :=
  match b.eng.life with
  | .active => f b
  | .unconstructed => b.raise .errState

/-- A query's answer: the observability record, then the OK response with the same value (43_host_ops.md R161 to R164,
60_exceptions.md R230). -/
def Body.answer (word : TxWord) (value : BitVec p.rdataWidth) (b : Body p) : Body p :=
  (b.observe word value).respond .ok value

/-- rdata of GET_POSITION (30_encoding.md R79). -/
def positionData (e : Engine p) : BitVec p.rdataWidth := e.pos.setWidth _

/-- rdata of GET_DIRECTION (30_encoding.md R79). -/
def directionData (e : Engine p) : BitVec p.rdataWidth := e.dir.bit.setWidth _

/-- rdata of GET_PERIOD: PERIOD_VALID above PERIOD (30_encoding.md R79). -/
def periodData (e : Engine p) : BitVec p.rdataWidth := (BitVec.ofBool e.periodValid ++ e.period).setWidth _

/-- rdata of GET_DIAGNOSTICS: DIAG[B] above DIAG[A] (30_encoding.md R79). -/
def diagnosticsData (e : Engine p) : BitVec p.rdataWidth := (e.diag.b ++ e.diag.a).setWidth _

/-- SET_ZERO's one write (43_host_ops.md R165). -/
def Body.zeroPosition (b : Body p) : Body p := { b with eng := { b.eng with pos := 0 } }

/-- GET_POSITION (43_host_ops.md R161). -/
def execGetPosition (s : State) : Host.Outcome State Fault Refusal :=
  s.finish (.ok (s.body.whenActive (fun b => b.answer 0x00 (positionData b.eng))))

/-- GET_DIRECTION (43_host_ops.md R162). -/
def execGetDirection (s : State) : Host.Outcome State Fault Refusal :=
  s.finish (.ok (s.body.whenActive (fun b => b.answer 0x01 (directionData b.eng))))

/-- GET_PERIOD (43_host_ops.md R163). -/
def execGetPeriod (s : State) : Host.Outcome State Fault Refusal :=
  s.finish (.ok (s.body.whenActive (fun b => b.answer 0x02 (periodData b.eng))))

/-- GET_DIAGNOSTICS (43_host_ops.md R164). -/
def execGetDiagnostics (s : State) : Host.Outcome State Fault Refusal :=
  s.finish (.ok (s.body.whenActive (fun b => b.answer 0x03 (diagnosticsData b.eng))))

/-- SET_ZERO (43_host_ops.md R165). It is no query, so it emits no observability record. -/
def execSetZero (s : State) : Host.Outcome State Fault Refusal :=
  s.finish (.ok (s.body.whenActive (fun b => b.zeroPosition.respond .ok 0)))

end Sys2Proof.Machine
end

