-- ==== Sys2Proof/Machine/Lifecycle.lean ====
section
/-! DEFINITION. CONSTRUCT and DESTROY (44_lifecycle.md). -/

namespace Sys2Proof.Machine

variable {p : Params}

/-- Every register after a CONSTRUCT that succeeds (10_state.md R39, 44_lifecycle.md R190). -/
def Engine.fresh (pinA pinB : BitVec p.pinIdWidth) : Engine p where
  life := .active
  pin := ⟨pinA, pinB⟩
  prev := ⟨0b00, 0b00⟩
  pos := 0
  dir := .clockwise
  ptPhase := false
  ptStamp := 0
  period := 0
  periodValid := false
  diag := ⟨0, 0⟩

/-- The claims of CONSTRUCT on an Unconstructed engine: A first, B only when A is granted, A rolled back when B is denied
(44_lifecycle.md R190, R191). -/
def Body.claimBoth (pinA pinB : BitVec p.pinIdWidth) (b : Body p) : Body p :=
  let claimedA := b.claim pinA b.inp.grantA
  match b.inp.grantA with
  | false => claimedA.raise .hwUnavailable
  | true =>
    let claimedB := claimedA.claim pinB b.inp.grantB
    match b.inp.grantB with
    | false => (claimedB.release pinA).raise .hwUnavailable
    | true => { claimedB with eng := .fresh pinA pinB }.respond .ok 0

/-- `CONSTRUCT(pin_a, pin_b)`: the lifecycle check, then the equal-pin check, then the claims (44_lifecycle.md R190, R192,
R193, 60_exceptions.md R217). -/
def Body.construct (pinA pinB : BitVec p.pinIdWidth) (b : Body p) : Body p :=
  match b.eng.life with
  | .active => b.raise .errState
  | .unconstructed => if pinA = pinB then b.raise .hwUnavailable else b.claimBoth pinA pinB

/-- `DESTROY`: both releases, then every register to its power-on value; nothing when Unconstructed; always OK
(44_lifecycle.md R194, R195). -/
def Body.destroy (b : Body p) : Body p :=
  match b.eng.life with
  | .active => ((b.release b.eng.pin.a).release b.eng.pin.b).clearRegisters.respond .ok 0
  | .unconstructed => b.respond .ok 0

/-- CONSTRUCT (44_lifecycle.md R190). -/
def execConstruct (pinA pinB : Nat) (s : State) : Host.Outcome State Fault Refusal :=
  s.finish (.ok (s.body.construct (pinOperand s.params pinA) (pinOperand s.params pinB)))

/-- DESTROY (44_lifecycle.md R194). -/
def execDestroy (s : State) : Host.Outcome State Fault Refusal := s.finish (.ok s.body.destroy)

end Sys2Proof.Machine
end

