-- ==== Sys2Proof/Machine/Dispatch.lean ====
section
/-! DEFINITION. One arm per transaction of QDE-OPS. -/

namespace Sys2Proof.Machine

def exec (i : Instr) (s : State) : Host.Outcome State Fault Refusal :=
  match i with
  | .getPosition => Sys2Proof.Machine.execGetPosition s
  | .getDirection => Sys2Proof.Machine.execGetDirection s
  | .getPeriod => Sys2Proof.Machine.execGetPeriod s
  | .getDiagnostics => Sys2Proof.Machine.execGetDiagnostics s
  | .setZero => Sys2Proof.Machine.execSetZero s
  | .construct pinA pinB => Sys2Proof.Machine.execConstruct pinA pinB s
  | .destroy => Sys2Proof.Machine.execDestroy s
  | .edgeA la lb => Sys2Proof.Machine.execEdgeA la lb s
  | .edgeB la lb => Sys2Proof.Machine.execEdgeB la lb s

end Sys2Proof.Machine
end

