-- ==== Sys2Proof/Machine/Ports.lean ====
section
/-! DEFINITION. The ports: what the next cycle of the schedule does, and the word an accepted port presents (30_encoding.md
R76, 20_memory.md R57, 60_exceptions.md R226). -/

namespace Sys2Proof.Machine

variable {p : Params}

/-- What the host presents: the oldest of its requests and no other, so one host transaction is outstanding at a time
(60_exceptions.md R225, log entry 16). -/
def Ports.hostPresents (q : Ports p) : Option (HostRequest p) := q.host.head?

/-- `edge_a_valid`, `edge_b_valid`, `host_valid`: the port presents a word (60_exceptions.md R226). -/
def Body.valid (b : Body p) : Port → Bool
  | .edgeA => !b.ports.edgeA.isEmpty
  | .edgeB => !b.ports.edgeB.isEmpty
  | .host => b.ports.hostPresents.isSome

/-- `edge_a_ready`, `edge_b_ready`, `host_ready` in the next cycle: the arbiter chooses the port, and no port while `rst` is
asserted (60_exceptions.md R226, 70_reset_and_hazards.md R240). -/
def Body.ready (b : Body p) (port : Port) : Bool :=
  match b.cycles with
  | [] => false
  | c :: _ => !c.rst && decide (c.accept = some port)

/-- The input values of a cycle; the tick count never decreases (60_exceptions.md R224). -/
def Cycle.inputs (c : Cycle) (tick : Nat) : Inputs := ⟨tick + c.elapsed, c.levelA, c.levelB, c.grantA, c.grantB⟩

/-- The oldest word of a port and what is left to present: an edge port fills the levels in, and only the host has write data
(30_encoding.md R70, R76). -/
def Ports.take (port : Port) (inp : Inputs) (q : Ports p) : Option (TxWord × BitVec p.wdataWidth × Ports p) :=
  match port with
  | .edgeA =>
    match q.edgeA with
    | [] => none
    | w :: rest => some (fillLevels inp.levelA inp.levelB w, 0, { q with edgeA := rest })
  | .edgeB =>
    match q.edgeB with
    | [] => none
    | w :: rest => some (fillLevels inp.levelA inp.levelB w, 0, { q with edgeB := rest })
  | .host =>
    match q.host with
    | [] => none
    | r :: rest => some (r.word, r.wdata, { q with host := rest })

/-- What the next cycle brings. -/
inductive Fetched (p : Params) where
  /-- `rst` is asserted. -/
  | reset (b : Body p)
  /-- No transaction is accepted. -/
  | idle (b : Body p)
  /-- A word is accepted at a port; `b` is the state the transaction runs in. -/
  | transaction (port : Port) (word : TxWord) (wdata : BitVec p.wdataWidth) (b : Body p)
  deriving DecidableEq, Repr

/-- The next cycle: reset, a transaction, or idle (70_reset_and_hazards.md R240, 20_memory.md R57, 60_exceptions.md R232).
The last step's output is gone. -/
def fetch (b : Body p) : Fetched p :=
  match b.cycles with
  | [] => .idle { b with out := .silent p }
  | c :: rest =>
    let now : Body p := { b with cycles := rest, inp := c.inputs b.inp.tick, out := .silent p }
    match c.rst with
    | true => .reset (now.powerOnReset c.edgeSourceRst)
    | false =>
      match c.accept with
      | none => .idle now
      | some port =>
        match b.ports.take port now.inp with
        | none => .idle now
        | some (word, wdata, left) =>
          .transaction port word wdata { now with ports := left, out := { Outputs.silent p with accepted := some port } }

/-- A port presents a word before all it presents already; only the host port has write data. -/
def Ports.presentFirst (port : Port) (word : TxWord) (wdata : BitVec p.wdataWidth) (q : Ports p) : Ports p :=
  match port with
  | .edgeA => { q with edgeA := word :: q.edgeA }
  | .edgeB => { q with edgeB := word :: q.edgeB }
  | .host => { q with host := ⟨word, wdata⟩ :: q.host }

/-- A cycle without reset that accepts a port at once with the present inputs, but for an edge port the levels its word
carries (log entry 15). -/
def acceptCycle (port : Port) (word : TxWord) (inp : Inputs) : Cycle where
  rst := false
  edgeSourceRst := false
  accept := some port
  elapsed := 0
  levelA := match port with
    | .host => inp.levelA
    | .edgeA => laField word
    | .edgeB => laField word
  levelB := match port with
    | .host => inp.levelB
    | .edgeA => lbField word
    | .edgeB => lbField word
  grantA := inp.grantA
  grantB := inp.grantB

/-- A word presented and accepted next (log entry 15). -/
def Body.presentNext (port : Port) (word : TxWord) (wdata : BitVec p.wdataWidth) (b : Body p) : Body p :=
  { b with ports := b.ports.presentFirst port word wdata, cycles := acceptCycle port word b.inp :: b.cycles }

end Sys2Proof.Machine
end

