-- ==== Sys2Proof/Machine/Step.lean ====
section
/-! DEFINITION. One step: one cycle of the schedule (00_scope.md R19, 20_memory.md R57). -/

namespace Sys2Proof.Machine

/-- A reset cycle, an idle cycle, or one whole transaction: decode (30_encoding.md R81), then the instruction's meaning, or the
answer to an illegal word (60_exceptions.md R215). -/
def step (s : State) : Host.Outcome State Fault Refusal :=
  match fetch s.body with
  | .reset b => .next { s with body := b }
  | .idle b => .next { s with body := b }
  | .transaction port word wdata b =>
    match decode s.params port word wdata with
    | .ok i => exec i { s with body := b }
    | .error _ => .next { s with body := b.illegalWord port }

/-- The state with an opcode-table word presented first at its port and a cycle scheduled first that accepts it, so that the
very next step runs it (log entries 14, 15). -/
def State.withFetchWord (s : State) (nbits w : Nat) : State :=
  { s with
    body := s.body.presentNext (portOfWord (tableWord nbits w)) (tableWord nbits w) (tableWdata s.params nbits w) }

end Sys2Proof.Machine
end

