-- ==== Sys2Proof/Safety.lean ====
section
/-! DEFINITION. The terms in which claims are stated: the decode rule without its table, runs and the transactions they carry
out, what an edge changes, which status a host word deserves, and the invariants. Nothing here is used by the machine. -/

namespace Sys2Proof.Machine

variable {p : Params}

/-! ### The decode rule, from the cycle and not from the table (40_decode_table.md R101, R102) -/

/-- The successor in the forward cycle 00, 01, 11, 10, 00 (R101). -/
def forwardNext (s : ChanState) : ChanState :=
  if s = 0b00 then 0b01 else if s = 0b01 then 0b11 else if s = 0b11 then 0b10 else 0b00

/-- +1 to the successor, -1 to the predecessor, else 0 (R102). -/
def stepRule (prev cur : ChanState) : Int :=
  if cur = forwardNext prev then 1 else if prev = forwardNext cur then -1 else 0

/-- The sum of the steps of one channel's successive samples, the first decoded against `prev`. -/
def pathSum (prev : ChanState) : List ChanState → Int
  | [] => 0
  | cur :: rest => stepRule prev cur + pathSum cur rest

/-! ### Edges and traces -/

/-- The edge transaction of a channel. -/
def edgeInstr : Channel → Bool → Bool → Instr
  | .A, la, lb => .edgeA la lb
  | .B, la, lb => .edgeB la lb

/-- The edge transaction of a channel that samples `cur`. -/
def edgeSampling (c : Channel) (cur : ChanState) : Instr := edgeInstr c (cur.getLsbD 1) (cur.getLsbD 0)

/-- The sample an instruction brings to channel `c`, if it is an edge of that channel. -/
def sampleOf (c : Channel) : Instr → Option ChanState
  | .edgeA la lb => if c = .A then some (channelState la lb) else none
  | .edgeB la lb => if c = .B then some (channelState la lb) else none
  | .getPosition | .getDirection | .getPeriod | .getDiagnostics | .setZero | .construct _ _ | .destroy => none

/-- Channel `c`'s samples in order. -/
def samples (c : Channel) (is : List Instr) : List ChanState := is.filterMap (sampleOf c)

/-- An edge of either channel. -/
def isEdge : Instr → Bool
  | .edgeA _ _ | .edgeB _ _ => true
  | .getPosition | .getDirection | .getPeriod | .getDiagnostics | .setZero | .construct _ _ | .destroy => false

/-- A query (43_host_ops.md R166). -/
def isQuery : Instr → Bool
  | .getPosition | .getDirection | .getPeriod | .getDiagnostics => true
  | .setZero | .construct _ _ | .destroy | .edgeA _ _ | .edgeB _ _ => false

/-- CONSTRUCT. -/
def isConstruct : Instr → Bool
  | .construct _ _ => true
  | .getPosition | .getDirection | .getPeriod | .getDiagnostics | .setZero | .destroy | .edgeA _ _ | .edgeB _ _ => false

/-- A transaction that writes POS with a value rather than a step: SET_ZERO, CONSTRUCT, DESTROY (20_memory.md R60). -/
def setsOrigin : Instr → Bool
  | .setZero | .construct _ _ | .destroy => true
  | .getPosition | .getDirection | .getPeriod | .getDiagnostics | .edgeA _ _ | .edgeB _ _ => false

/-- The legal instruction the next step carries out, if it carries one out. -/
def nextInstr (s : State) : Option Instr :=
  match fetch s.body with
  | .transaction port word wdata _ =>
    match decode s.params port word wdata with
    | .ok i => some i
    | .error _ => none
  | .reset _ => none
  | .idle _ => none

/-- `n` steps lead from `s` to `t` with no fault and no refusal. -/
def Runs (n : Nat) (s t : State) : Prop := Host.Core.run Sys2Proof.core n s = .next t

/-- The legal instructions that `n` steps carry out, in order. -/
def trace : Nat → State → List Instr
  | 0, _ => []
  | n + 1, s =>
    (nextInstr s).toList ++
      match step s with
      | .next t => trace n t
      | .fault _ => []
      | .refused _ => []

/-- No reset is asserted in the next `n` cycles. -/
abbrev NoReset (n : Nat) (b : Body p) : Prop := ∀ c ∈ b.cycles.take n, c.rst = false

/-- `N` times the forward cycle 01, 11, 10, 00 on channel A alone (95_test_vectors.md V-W2). -/
def forwardCyclesA (N : Nat) : List Instr :=
  (List.replicate N [edgeSampling .A 0b01, edgeSampling .A 0b11, edgeSampling .A 0b10, edgeSampling .A 0b00]).flatten

/-- `N` times the reverse cycle 10, 11, 01, 00 on channel A alone (95_test_vectors.md V-W3). -/
def reverseCyclesA (N : Nat) : List Instr :=
  (List.replicate N [edgeSampling .A 0b10, edgeSampling .A 0b11, edgeSampling .A 0b01, edgeSampling .A 0b00]).flatten

/-- The channel state after `k` forward steps from 00 (40_decode_table.md R101). -/
def rotationState : Nat → ChanState
  | 0 => 0b00
  | k + 1 => forwardNext (rotationState k)

/-- The first `n` edges of steady forward rotation from 00: channels B, A, B, A, each sampling just after its own edge
(40_decode_table.md R108, 42_edge_events.md R148). -/
def forwardRotation (n : Nat) : List Instr :=
  (List.range n).map (fun k => edgeSampling (if k % 2 = 0 then .B else .A) (rotationState (k + 1)))

/-! ### What an edge changes -/

/-- The pulse timer's part of an edge at time `now` (41_pulse_timer.md R121). -/
def TimerEffect (now : BitVec p.tsWidth) (e e' : Engine p) : Prop :=
  (e.ptPhase = false →
    e'.ptPhase = true ∧ e'.ptStamp = now ∧ e'.period = e.period ∧ e'.periodValid = e.periodValid) ∧
  (e.ptPhase = true →
    e'.ptPhase = false ∧ e'.ptStamp = e.ptStamp ∧ e'.period = now - e.ptStamp ∧ e'.periodValid = true)

/-- The whole effect of an edge of channel `c` sampling `cur` in a state that is Active, and its frame: everything that is
named neither here nor in `TimerEffect` is as before (42_edge_events.md R140). -/
def EdgeEffect (c : Channel) (cur : ChanState) (b t : Body p) : Prop :=
  t.eng.pos = BitVec.ofInt _ (b.eng.pos.toInt + stepRule (b.eng.prev.get c) cur) ∧
  t.eng.dir =
    (if stepRule (b.eng.prev.get c) cur = 1 then .clockwise
     else if stepRule (b.eng.prev.get c) cur = -1 then .counterClockwise
     else b.eng.dir) ∧
  t.eng.prev.get c = cur ∧
  t.eng.diag.get c = b.eng.diag.get c + 1 ∧
  TimerEffect (b.inp.now p) b.eng t.eng ∧
  (∀ c', c' ≠ c → t.eng.prev.get c' = b.eng.prev.get c' ∧ t.eng.diag.get c' = b.eng.diag.get c') ∧
  t.eng.life = b.eng.life ∧ t.eng.pin = b.eng.pin ∧
  t = { b with eng := t.eng }

/-! ### Host words -/

/-- A word of the host's part of the opcode map (30_encoding.md R80, R82). -/
abbrev HostWord (w : TxWord) : Prop := w.toNat ≤ 0x03 ∨ (0x40 ≤ w.toNat ∧ w.toNat ≤ 0x42)

/-- A word of an edge port's own four (30_encoding.md R76, R80). -/
abbrev EdgeWordOf (c : Channel) (w : TxWord) : Prop :=
  match c with
  | .A => 0x80 ≤ w.toNat ∧ w.toNat ≤ 0x83
  | .B => 0x84 ≤ w.toNat ∧ w.toNat ≤ 0x87

/-- The status a host transaction ends with, its checks in the order of 60_exceptions.md R217. -/
def statusOf (b : Body p) (w : TxWord) (wdata : BitVec p.wdataWidth) : Status :=
  if ¬ HostWord w then .illegal
  else if w = 0x42 then .ok
  else if w = 0x41 then
    if b.eng.life = .active then .errState
    else if wdata.toNat % 2 ^ p.pinIdWidth = wdata.toNat / 2 ^ p.pinIdWidth then .hwUnavailable
    else if b.inp.grantA = false then .hwUnavailable
    else if b.inp.grantB = false then .hwUnavailable
    else .ok
  else if b.eng.life = .unconstructed then .errState
  else .ok

/-- An observability record. -/
def isObs : Emission p → Bool
  | .obs _ _ => true
  | .claim _ _ => false
  | .release _ => false

/-! ### The host's duties (60_exceptions.md R225) -/

/-- The host keeps its duties of order in the next cycle: it issues a query or SET_ZERO only on an engine that a CONSTRUCT has
made Active (70_reset_and_hazards.md R242), and the engine's state is discarded by a reset only after DESTROY (R244, R252). That
it issues one transaction at a time holds of every state (`Ports.hostPresents`). -/
abbrev DutifulHost (s : State) : Prop :=
  (∀ i ∈ (nextInstr s).toList, isQuery i = true ∨ i = .setZero → s.body.eng.life = .active) ∧
  (∀ c ∈ s.body.cycles.take 1, c.rst = true → s.body.eng.life = .unconstructed)

/-- How a dutiful host reads the rdata of GET_PERIOD: it tests PERIOD_VALID before it uses the period
(70_reset_and_hazards.md R248). -/
def periodRead (p : Params) (rdata : BitVec p.rdataWidth) : Option Nat :=
  if rdata.getLsbD p.tsWidth = true then some (rdata.toNat % 2 ^ p.tsWidth) else none

/-! ### Invariants -/

/-- What holds of the registers between transactions: the parameters are legal, an invalid period is 0 (10_state.md R41), an
Unconstructed engine holds its power-on values (R39), and an Active one is bound to two different pins (44_lifecycle.md R192). -/
abbrev RegistersSound (s : State) : Prop :=
  s.params.Legal ∧
  (s.body.eng.periodValid = false → s.body.eng.period = 0) ∧
  (s.body.eng.life = .unconstructed → s.body.eng = Engine.powerOn s.params) ∧
  (s.body.eng.life = .active → s.body.eng.pin.a ≠ s.body.eng.pin.b)

/-- PT_PHASE is the parity of the number of edges counted (10_state.md R28, R31): wrapping keeps it, since 2^DIAG_WIDTH is even. -/
abbrev PhaseIsEdgeParity (s : State) : Prop :=
  1 ≤ s.params.diagWidth ∧
  s.body.eng.ptPhase = decide ((s.body.eng.diag.a.toNat + s.body.eng.diag.b.toNat) % 2 = 1)

/-- The Edge Source holds both pins' registrations when the engine is Active and none when it is not (10_state.md R40). -/
abbrev RegistrationsMatch (s : State) : Prop :=
  (s.body.eng.life = .active → s.body.eng.pin.a ≠ s.body.eng.pin.b) ∧
  s.body.edgeSource.registered =
    match s.body.eng.life with
    | .unconstructed => []
    | .active => [s.body.eng.pin.b, s.body.eng.pin.a]

/-- The platform's duty in the next cycle: it resets the Edge Source's registrations with the engine (70_reset_and_hazards.md
R240, R252). -/
abbrev OneResetDomain (s : State) : Prop := ∀ c ∈ s.body.cycles.take 1, c.rst = true → c.edgeSourceRst = true

end Sys2Proof.Machine
end

