-- ==== Sys2Proof/Certificates/Slice0/Obligations.lean ====
section
/-! DEFINITION. The statements for the provers. Each docstring names the rules of spec/ it formalises. A state is written
`⟨p, b⟩`: parameters and body; every statement is about every `p` unless it says otherwise. -/

open Sys2Proof Sys2Proof.Machine

/-! ### Encoding -/

/-- 30_encoding.md R80: the words written out bit by bit, each decoding to its instruction on its port, for every write data. -/
def Obligations.WordsOfTheMapDecode : Prop :=
  ∀ (p : Params) (wdata : BitVec p.wdataWidth),
    decode p .host 0b00000000 wdata = .ok .getPosition ∧
    decode p .host 0b00000001 wdata = .ok .getDirection ∧
    decode p .host 0b00000010 wdata = .ok .getPeriod ∧
    decode p .host 0b00000011 wdata = .ok .getDiagnostics ∧
    decode p .host 0b01000000 wdata = .ok .setZero ∧
    decode p .host 0b01000001 wdata = .ok (.construct (pinAField p wdata) (pinBField p wdata)) ∧
    decode p .host 0b01000010 wdata = .ok .destroy ∧
    decode p .edgeA 0b10000000 wdata = .ok (.edgeA false false) ∧
    decode p .edgeA 0b10000001 wdata = .ok (.edgeA false true) ∧
    decode p .edgeA 0b10000010 wdata = .ok (.edgeA true false) ∧
    decode p .edgeA 0b10000011 wdata = .ok (.edgeA true true) ∧
    decode p .edgeB 0b10000100 wdata = .ok (.edgeB false false) ∧
    decode p .edgeB 0b10000101 wdata = .ok (.edgeB false true) ∧
    decode p .edgeB 0b10000110 wdata = .ok (.edgeB true false) ∧
    decode p .edgeB 0b10000111 wdata = .ok (.edgeB true true)

/-- 30_encoding.md R81: on every port and word the decoder answers an instruction exactly where the map has one, with
CONSTRUCT's pins the two halves of the write data. -/
def Obligations.DecoderIsTheOpcodeMap : Prop :=
  ∀ (p : Params) (port : Port) (w : TxWord) (wdata : BitVec p.wdataWidth) (i : Instr),
    decode p port w wdata = .ok i ↔
      (port = .host ∧
        ((w = 0x00 ∧ i = .getPosition) ∨ (w = 0x01 ∧ i = .getDirection) ∨ (w = 0x02 ∧ i = .getPeriod) ∨
         (w = 0x03 ∧ i = .getDiagnostics) ∨ (w = 0x40 ∧ i = .setZero) ∨
         (w = 0x41 ∧ i = .construct (wdata.toNat % 2 ^ p.pinIdWidth) (wdata.toNat / 2 ^ p.pinIdWidth)) ∨
         (w = 0x42 ∧ i = .destroy))) ∨
      (port = .edgeA ∧ w.extractLsb' 2 6 = 0b100000 ∧ i = .edgeA (w.getLsbD 1) (w.getLsbD 0)) ∨
      (port = .edgeB ∧ w.extractLsb' 2 6 = 0b100001 ∧ i = .edgeB (w.getLsbD 1) (w.getLsbD 0))

/-- 30_encoding.md R80, R85: decoding what the encoder makes of a well-formed instruction gives it back, with every operand at
every value, under every choice of parameters. -/
def Obligations.DecodeEncodeRoundTrip : Prop :=
  ∀ (p : Params) (i : Instr), i.wellFormed p = true →
    decode p (encode p i).port (encode p i).word (encode p i).wdata = .ok i

/-- 30_encoding.md R80, R85: the other direction. A word that decodes is the encoder's word for the instruction, on the
encoder's port, the instruction is well-formed, and CONSTRUCT's write data is the encoder's. -/
def Obligations.DecodedWordIsItsEncoding : Prop :=
  ∀ (p : Params) (port : Port) (w : TxWord) (wdata : BitVec p.wdataWidth) (i : Instr),
    decode p port w wdata = .ok i →
      i.wellFormed p = true ∧ port = portOf i ∧ w = encodeWord i ∧
      (isConstruct i = true → wdata = encodeWdata p i)

/-- 30_encoding.md R75: a word of the reserved class decodes as ILLEGAL on every port. -/
def Obligations.ReservedClassIsIllegal : Prop :=
  ∀ (p : Params) (port : Port) (w : TxWord) (wdata : BitVec p.wdataWidth),
    w.extractLsb' 6 2 = 0b11 → ∃ e, decode p port w wdata = .error e

/-- 30_encoding.md R77: CONSTRUCT takes pin_a from the low and pin_b from the high PIN_ID_WIDTH bits of the write data; every
other word decodes the same whatever the write data. -/
def Obligations.WriteDataIsReadByConstructOnly : Prop :=
  ∀ (p : Params) (port : Port) (w : TxWord) (wdata wdata' : BitVec p.wdataWidth),
    decode p .host 0x41 wdata =
      .ok (.construct (wdata.extractLsb' 0 p.pinIdWidth).toNat (wdata.extractLsb' p.pinIdWidth p.pinIdWidth).toNat) ∧
    (w ≠ 0x41 → decode p port w wdata = decode p port w wdata')

/-! ### The step: transactions, illegal words, reset, idling -/

/-- 00_scope.md R19 and 30_encoding.md R76, R81: when the schedule's next cycle accepts a port whose oldest word decodes to an
instruction, the step is that instruction's `exec` in the state in which the cycle and the word are consumed, the cycle's
inputs are driven and the last output is gone. An edge port's word has its two level bits from the cycle. -/
def Obligations.StepRunsTheDecodedInstruction : Prop :=
  ∀ (p : Params) (b : Body p) (c : Cycle) (rest : List Cycle), b.cycles = c :: rest → c.rst = false →
    (∀ r hs i, c.accept = some .host → b.ports.host = r :: hs → decode p .host r.word r.wdata = .ok i →
      step ⟨p, b⟩ = exec i ⟨p, { b with
        cycles := rest
        inp := ⟨b.inp.tick + c.elapsed, c.levelA, c.levelB, c.grantA, c.grantB⟩
        ports := { b.ports with host := hs }
        out := ⟨some .host, none, []⟩ }⟩) ∧
    (∀ w ws i, c.accept = some .edgeA → b.ports.edgeA = w :: ws →
      decode p .edgeA (w.extractLsb' 2 6 ++ BitVec.ofBool c.levelA ++ BitVec.ofBool c.levelB) 0 = .ok i →
      step ⟨p, b⟩ = exec i ⟨p, { b with
        cycles := rest
        inp := ⟨b.inp.tick + c.elapsed, c.levelA, c.levelB, c.grantA, c.grantB⟩
        ports := { b.ports with edgeA := ws }
        out := ⟨some .edgeA, none, []⟩ }⟩) ∧
    (∀ w ws i, c.accept = some .edgeB → b.ports.edgeB = w :: ws →
      decode p .edgeB (w.extractLsb' 2 6 ++ BitVec.ofBool c.levelA ++ BitVec.ofBool c.levelB) 0 = .ok i →
      step ⟨p, b⟩ = exec i ⟨p, { b with
        cycles := rest
        inp := ⟨b.inp.tick + c.elapsed, c.levelA, c.levelB, c.grantA, c.grantB⟩
        ports := { b.ports with edgeB := ws }
        out := ⟨some .edgeB, none, []⟩ }⟩)

/-- 60_exceptions.md R215: a host word outside the opcode map responds ILLEGAL with rdata 0, writes no register and emits
nothing, whatever LIFE is; an edge-port word other than the port's own four is dropped with no state change and no response. -/
def Obligations.IllegalWordsChangeNothing : Prop :=
  ∀ (p : Params) (b b' : Body p) (port : Port) (w : TxWord) (wdata : BitVec p.wdataWidth),
    fetch b = .transaction port w wdata b' →
      (port = .host → ¬ HostWord w →
        step ⟨p, b⟩ = .next ⟨p, { b' with out := ⟨some .host, some ⟨.illegal, 0⟩, []⟩ }⟩ ∧
        b'.eng = b.eng ∧ b'.edgeSource = b.edgeSource) ∧
      (port = .edgeA → ¬ EdgeWordOf .A w →
        step ⟨p, b⟩ = .next ⟨p, { b' with out := ⟨some .edgeA, none, []⟩ }⟩ ∧
        b'.eng = b.eng ∧ b'.edgeSource = b.edgeSource) ∧
      (port = .edgeB → ¬ EdgeWordOf .B w →
        step ⟨p, b⟩ = .next ⟨p, { b' with out := ⟨some .edgeB, none, []⟩ }⟩ ∧
        b'.eng = b.eng ∧ b'.edgeSource = b.edgeSource)

/-- 70_reset_and_hazards.md R240 and 10_state.md R39: a cycle with `rst` asserted accepts and emits nothing and leaves every
register at its power-on value; the Edge Source's registrations go only when the platform resets it too. -/
def Obligations.PowerOnReset : Prop :=
  ∀ (p : Params) (b : Body p) (c : Cycle) (rest : List Cycle), b.cycles = c :: rest → c.rst = true →
    ∃ t : Body p, step ⟨p, b⟩ = .next ⟨p, t⟩ ∧
      t.eng.life = .unconstructed ∧ t.eng.pin = ⟨0, 0⟩ ∧ t.eng.prev = ⟨0b00, 0b00⟩ ∧ t.eng.pos = 0 ∧
      t.eng.dir = .clockwise ∧ t.eng.ptPhase = false ∧ t.eng.ptStamp = 0 ∧ t.eng.period = 0 ∧
      t.eng.periodValid = false ∧ t.eng.diag = ⟨0, 0⟩ ∧
      t.out = ⟨none, none, []⟩ ∧ t.ports = b.ports ∧ t.cycles = rest ∧
      (c.edgeSourceRst = true → t.edgeSource.registered = []) ∧
      (c.edgeSourceRst = false → t.edgeSource = b.edgeSource)

/-- 60_exceptions.md R232: with no cycle left, no port chosen, or the chosen port presenting nothing, the engine keeps all its
state and puts nothing out. -/
def Obligations.IdleKeepsAllState : Prop :=
  ∀ (p : Params) (b : Body p),
    (b.cycles = [] → step ⟨p, b⟩ = .next ⟨p, { b with out := ⟨none, none, []⟩ }⟩) ∧
    (∀ c rest, b.cycles = c :: rest → c.rst = false →
      (c.accept = none ∨ ∃ port, c.accept = some port ∧ b.valid port = false) →
      ∃ t : Body p, step ⟨p, b⟩ = .next ⟨p, t⟩ ∧
        t.eng = b.eng ∧ t.edgeSource = b.edgeSource ∧ t.ports = b.ports ∧ t.out = ⟨none, none, []⟩)

/-- 70_reset_and_hazards.md R253, 42_edge_events.md R152: from every state, whatever is presented and scheduled, a step gives a
next state with the same parameters; no step faults and none refuses. -/
def Obligations.EveryStepCompletes : Prop :=
  ∀ s : State, ∃ b : Body s.params, step s = .next ⟨s.params, b⟩

/-- 20_memory.md R57 and 60_exceptions.md R226: a step accepts a port's word exactly when the port is valid and ready; it takes
that port's oldest word and leaves the other ports' words as they are, so each port's order is kept. -/
def Obligations.EachPortKeepsItsOrder : Prop :=
  ∀ (p : Params) (b t : Body p), step ⟨p, b⟩ = .next ⟨p, t⟩ →
    (∀ port, t.out.accepted = some port ↔ (b.valid port = true ∧ b.ready port = true)) ∧
    t.ports.edgeA = (if t.out.accepted = some .edgeA then b.ports.edgeA.tail else b.ports.edgeA) ∧
    t.ports.edgeB = (if t.out.accepted = some .edgeB then b.ports.edgeB.tail else b.ports.edgeB) ∧
    t.ports.host = (if t.out.accepted = some .host then b.ports.host.tail else b.ports.host)

/-- 60_exceptions.md R224: along every run the tick count whose low bits are NOW never decreases. -/
def Obligations.TimeNeverDecreases : Prop :=
  ∀ (n : Nat) (s t : State), Runs n s t →
    s.body.inp.tick ≤ t.body.inp.tick ∧ (t.body.inp.now t.params).toNat = t.body.inp.tick % 2 ^ t.params.tsWidth

/-- 30_encoding.md R78: a step that accepts a host word ends with exactly one response, and no other step has one; when the
status is not OK, rdata is 0. A response is one vector with the 2-bit status code above rdata. -/
def Obligations.ExactlyHostTransactionsRespond : Prop :=
  ∀ (p : Params) (b t : Body p), step ⟨p, b⟩ = .next ⟨p, t⟩ →
    (t.out.response.isSome = true ↔ t.out.accepted = some .host) ∧
    (∀ r, t.out.response = some r → (r.status ≠ .ok → r.rdata = 0) ∧
      r.bits.toNat = r.status.code.toNat * 2 ^ p.rdataWidth + r.rdata.toNat) ∧
    Status.ok.code = 0 ∧ Status.hwUnavailable.code = 1 ∧ Status.errState.code = 2 ∧ Status.illegal.code = 3

/-- 60_exceptions.md R217, R210: in every state a host transaction ends with the status of the first check that fails, in the
order decode, lifecycle, equal pins, claim of pin_a, claim of pin_b; and when the status is not OK no register is written. -/
def Obligations.HostChecksRunInOrder : Prop :=
  ∀ (p : Params) (b b' : Body p) (w : TxWord) (wdata : BitVec p.wdataWidth),
    fetch b = .transaction .host w wdata b' →
    ∃ (t : Body p) (r : Response p), step ⟨p, b⟩ = .next ⟨p, t⟩ ∧ t.out.response = some r ∧
      r.status = statusOf b' w wdata ∧ (r.status ≠ .ok → r.rdata = 0 ∧ t.eng = b.eng)

/-- The model's choice for the host's interface (log entries 14, 15): a word that decodes, placed by `withFetchWord`, is what
the very next step runs, with the inputs as they were but for an edge word's levels. -/
def Obligations.PlacedWordRunsNext : Prop :=
  ∀ (s : State) (w : TxWord) (i : Instr), decode s.params (portOfWord w) w 0 = .ok i →
    ∃ b : Body s.params, step (s.withFetchWord 8 w.toNat) = exec i ⟨s.params, b⟩ ∧
      b.eng = s.body.eng ∧ b.edgeSource = s.body.edgeSource ∧ b.ports = s.body.ports ∧ b.cycles = s.body.cycles ∧
      b.inp.tick = s.body.inp.tick ∧ b.inp.grantA = s.body.inp.grantA ∧ b.inp.grantB = s.body.inp.grantB

/-! ### Reset values and the decode table -/

/-- 10_state.md R39: every register's value after power-on reset, and the default parameters. -/
def Obligations.ResetValues : Prop :=
  State.reset.params = { posWidth := 32, diagWidth := 32, tsWidth := 64, tickNs := 1, pinIdWidth := 8, obsSink := false } ∧
  State.reset.body.eng.life = .unconstructed ∧ State.reset.body.eng.pin = ⟨0, 0⟩ ∧
  State.reset.body.eng.prev = ⟨0b00, 0b00⟩ ∧ State.reset.body.eng.pos = 0 ∧ State.reset.body.eng.dir = .clockwise ∧
  State.reset.body.eng.ptPhase = false ∧ State.reset.body.eng.ptStamp = 0 ∧ State.reset.body.eng.period = 0 ∧
  State.reset.body.eng.periodValid = false ∧ State.reset.body.eng.diag = ⟨0, 0⟩

/-- 40_decode_table.md R102, R103, R105, R106: `DT` follows the forward cycle for every pair of channel states, is
antisymmetric, and has no value for any index above 15. -/
def Obligations.DecodeTableFollowsTheCycle : Prop :=
  (∀ prev cur : ChanState, (DT (prev.toNat * 4 + cur.toNat)).map GrayStep.toInt = some (stepRule prev cur)) ∧
  (∀ prev cur : ChanState,
    (DT (prev.toNat * 4 + cur.toNat)).map GrayStep.toInt = (DT (cur.toNat * 4 + prev.toNat)).map (fun d => - d.toInt)) ∧
  (∀ i, 16 ≤ i → DT i = none)

/-! ### Edge transactions -/

/-- 42_edge_events.md R140, R141: EDGE_A on an Active engine, with every register it writes and everything it leaves. -/
def Obligations.EdgeAOnActiveEngine : Prop :=
  ∀ (p : Params) (b : Body p) (la lb : Bool), b.eng.life = .active →
    ∃ t : Body p, exec (.edgeA la lb) ⟨p, b⟩ = .next ⟨p, t⟩ ∧ EdgeEffect .A (BitVec.ofBool la ++ BitVec.ofBool lb) b t

/-- 42_edge_events.md R140, R142: EDGE_B on an Active engine, with every register it writes and everything it leaves. -/
def Obligations.EdgeBOnActiveEngine : Prop :=
  ∀ (p : Params) (b : Body p) (la lb : Bool), b.eng.life = .active →
    ∃ t : Body p, exec (.edgeB la lb) ⟨p, b⟩ = .next ⟨p, t⟩ ∧ EdgeEffect .B (BitVec.ofBool la ++ BitVec.ofBool lb) b t

/-- 42_edge_events.md R144: an edge while Unconstructed changes no register, has no response and emits nothing. -/
def Obligations.EdgeWhileUnconstructedIsDropped : Prop :=
  ∀ (p : Params) (b : Body p) (c : Channel) (la lb : Bool), b.eng.life = .unconstructed →
    exec (edgeInstr c la lb) ⟨p, b⟩ = .next ⟨p, b⟩

/-- 42_edge_events.md R145, R146: when both bits differ (diagonal) or none does (repeated), POS and DIR are unchanged while
PREV[c], DIAG[c] and the pulse timer are updated as in every edge, with no error and no response. -/
def Obligations.DiagonalAndRepeatedEdgesStepNothing : Prop :=
  ∀ (p : Params) (b : Body p) (c : Channel) (la lb : Bool), b.eng.life = .active →
    (b.eng.prev.get c ^^^ channelState la lb = 0b11 ∨ b.eng.prev.get c = channelState la lb) →
    ∃ t : Body p, exec (edgeInstr c la lb) ⟨p, b⟩ = .next ⟨p, t⟩ ∧
      t.eng.pos = b.eng.pos ∧ t.eng.dir = b.eng.dir ∧ t.eng.prev.get c = channelState la lb ∧
      t.eng.diag.get c = b.eng.diag.get c + 1 ∧ TimerEffect (b.inp.now p) b.eng t.eng ∧ t.out = b.out

/-- 42_edge_events.md R150, in signed values: +1 from 2^(POS_WIDTH-1) - 1 gives -2^(POS_WIDTH-1), -1 from there gives it back,
and every other step adds; no flag and no error. -/
def Obligations.PositionWraps : Prop :=
  ∀ (p : Params) (b : Body p) (c : Channel) (la lb : Bool), p.Legal → b.eng.life = .active →
    ∃ t : Body p, exec (edgeInstr c la lb) ⟨p, b⟩ = .next ⟨p, t⟩ ∧ t.out = b.out ∧
      t.eng.pos.toInt =
        (if stepRule (b.eng.prev.get c) (channelState la lb) = 1 ∧ b.eng.pos.toInt = 2 ^ (p.posWidth - 1) - 1 then
          - 2 ^ (p.posWidth - 1)
        else if stepRule (b.eng.prev.get c) (channelState la lb) = -1 ∧ b.eng.pos.toInt = - 2 ^ (p.posWidth - 1) then
          2 ^ (p.posWidth - 1) - 1
        else b.eng.pos.toInt + stepRule (b.eng.prev.get c) (channelState la lb))

/-- 42_edge_events.md R151: DIAG[c] goes from 2^DIAG_WIDTH - 1 to 0 and otherwise adds 1, whatever the step, with no flag and no
error. -/
def Obligations.DiagnosticCounterWraps : Prop :=
  ∀ (p : Params) (b : Body p) (c : Channel) (la lb : Bool), b.eng.life = .active →
    ∃ t : Body p, exec (edgeInstr c la lb) ⟨p, b⟩ = .next ⟨p, t⟩ ∧ t.out = b.out ∧
      (t.eng.diag.get c).toNat =
        if (b.eng.diag.get c).toNat = 2 ^ p.diagWidth - 1 then 0 else (b.eng.diag.get c).toNat + 1

/-- 42_edge_events.md R152: an edge of either channel gives a next state from every state, reachable or not, with no response
and no record. -/
def Obligations.EdgesNeverFail : Prop :=
  ∀ (p : Params) (b : Body p) (c : Channel) (la lb : Bool),
    ∃ t : Body p, exec (edgeInstr c la lb) ⟨p, b⟩ = .next ⟨p, t⟩ ∧ t.out = b.out

/-- 42_edge_events.md R147, 10_state.md R23: an edge of one channel does the same whatever the other channel's PREV and DIAG
hold, and leaves them as they are. -/
def Obligations.ChannelsAreIsolated : Prop :=
  ∀ (p : Params) (b t : Body p) (la lb : Bool) (v : ChanState) (d : BitVec p.diagWidth),
    (exec (.edgeA la lb) ⟨p, b⟩ = .next ⟨p, t⟩ →
      exec (.edgeA la lb) ⟨p, { b with eng := { b.eng with prev := ⟨b.eng.prev.a, v⟩, diag := ⟨b.eng.diag.a, d⟩ } }⟩ =
        .next ⟨p, { t with eng := { t.eng with prev := ⟨t.eng.prev.a, v⟩, diag := ⟨t.eng.diag.a, d⟩ } }⟩) ∧
    (exec (.edgeB la lb) ⟨p, b⟩ = .next ⟨p, t⟩ →
      exec (.edgeB la lb) ⟨p, { b with eng := { b.eng with prev := ⟨v, b.eng.prev.b⟩, diag := ⟨d, b.eng.diag.b⟩ } }⟩ =
        .next ⟨p, { t with eng := { t.eng with prev := ⟨v, t.eng.prev.b⟩, diag := ⟨d, t.eng.diag.b⟩ } }⟩)

/-- 41_pulse_timer.md R123, R124: two edges on an Active engine whose timer is at an odd-numbered call, of whatever channels and
steps, at tick counts T1 and then T2, leave a valid period of (T2 - T1) mod 2^TS_WIDTH ticks. -/
def Obligations.PeriodIsTheElapsedTicks : Prop :=
  ∀ (p : Params) (b : Body p) (c1 c2 : Channel) (la1 lb1 la2 lb2 : Bool) (T2 : Nat),
    b.eng.life = .active → b.eng.ptPhase = false → b.inp.tick ≤ T2 →
    ∃ m t : Body p, exec (edgeInstr c1 la1 lb1) ⟨p, b⟩ = .next ⟨p, m⟩ ∧
      exec (edgeInstr c2 la2 lb2) ⟨p, { m with inp := { m.inp with tick := T2 } }⟩ = .next ⟨p, t⟩ ∧
      t.eng.periodValid = true ∧ t.eng.period.toNat = (T2 - b.inp.tick) % 2 ^ p.tsWidth ∧ t.eng.ptPhase = false

/-- 20_memory.md R60, with 42_edge_events.md R147: along a run of any length from an Active engine, with no reset and no
SET_ZERO, CONSTRUCT or DESTROY in it, however ports interleave and whatever queries and illegal words fall between, every edge
applies its step once: POS is the old POS plus both channels' steps modulo 2^POS_WIDTH, each channel's steps depending on its
own samples alone; DIAG counts each channel's edges and PREV holds its last sample. -/
def Obligations.NoStepIsLost : Prop :=
  ∀ (p : Params) (b : Body p) (n : Nat), b.eng.life = .active → NoReset n b →
    (∀ i ∈ trace n ⟨p, b⟩, setsOrigin i = false) →
    ∃ t : Body p, Runs n ⟨p, b⟩ ⟨p, t⟩ ∧ t.eng.life = .active ∧
      t.eng.pos = BitVec.ofInt _ (b.eng.pos.toInt + pathSum b.eng.prev.a (samples .A (trace n ⟨p, b⟩)) +
        pathSum b.eng.prev.b (samples .B (trace n ⟨p, b⟩))) ∧
      (∀ c, t.eng.diag.get c = b.eng.diag.get c + BitVec.ofNat _ (samples c (trace n ⟨p, b⟩)).length) ∧
      (∀ c, t.eng.prev.get c = ((samples c (trace n ⟨p, b⟩)).getLast?).getD (b.eng.prev.get c))

/-- 20_memory.md R57, 95_test_vectors.md V-W5: two runs from Active engines with the same registers whose edge ports bring each
channel the same samples in order, interleaved in any two ways, end with the same POS, PREV and DIAG. -/
def Obligations.InterleavingDoesNotMatter : Prop :=
  ∀ (p : Params) (b₁ b₂ t₁ t₂ : Body p) (n₁ n₂ : Nat),
    b₁.eng = b₂.eng → b₁.eng.life = .active → NoReset n₁ b₁ → NoReset n₂ b₂ →
    (∀ i ∈ trace n₁ ⟨p, b₁⟩, setsOrigin i = false) → (∀ i ∈ trace n₂ ⟨p, b₂⟩, setsOrigin i = false) →
    (∀ c, samples c (trace n₁ ⟨p, b₁⟩) = samples c (trace n₂ ⟨p, b₂⟩)) →
    Runs n₁ ⟨p, b₁⟩ ⟨p, t₁⟩ → Runs n₂ ⟨p, b₂⟩ ⟨p, t₂⟩ →
      t₁.eng.pos = t₂.eng.pos ∧ t₁.eng.prev = t₂.eng.prev ∧ t₁.eng.diag = t₂.eng.diag

/-- 42_edge_events.md R148: in steady forward rotation from PREV = 00/00, of any length from one edge up, POS gains 1 in all:
after the first edge of channel B every edge has step 0. -/
def Obligations.SteadyRotationCountsOnce : Prop :=
  ∀ (p : Params) (b : Body p) (n k : Nat), b.eng.life = .active → b.eng.prev = ⟨0b00, 0b00⟩ → NoReset n b → 1 ≤ k →
    trace n ⟨p, b⟩ = forwardRotation k →
    ∃ t : Body p, Runs n ⟨p, b⟩ ⟨p, t⟩ ∧ t.eng.pos = b.eng.pos + 1 ∧ t.eng.dir = .clockwise

/-- 95_test_vectors.md V-W2, V-W3: `N` forward cycles on channel A alone from PREV[A] = 00 add 4·N to POS and, for N at least 1,
leave DIR Clockwise; `N` reverse cycles subtract 4·N and leave it CounterClockwise. -/
def Obligations.SingleChannelCyclesCountFourEach : Prop :=
  ∀ (p : Params) (b : Body p) (n N : Nat), b.eng.life = .active → b.eng.prev.a = 0b00 → NoReset n b → 1 ≤ N →
    (trace n ⟨p, b⟩ = forwardCyclesA N →
      ∃ t : Body p, Runs n ⟨p, b⟩ ⟨p, t⟩ ∧ t.eng.pos = BitVec.ofInt _ (b.eng.pos.toInt + 4 * N) ∧
        t.eng.dir = .clockwise) ∧
    (trace n ⟨p, b⟩ = reverseCyclesA N →
      ∃ t : Body p, Runs n ⟨p, b⟩ ⟨p, t⟩ ∧ t.eng.pos = BitVec.ofInt _ (b.eng.pos.toInt - 4 * N) ∧
        t.eng.dir = .counterClockwise)

/-! ### Queries and SET_ZERO -/

/-- 43_host_ops.md R161: GET_POSITION is word 0x00 of the host port; on an Active engine it answers OK with POS zero-filled, with
its observability record when OBS_SINK, and changes nothing else; Unconstructed it answers ERR_STATE with rdata 0 and changes
nothing. -/
def Obligations.GetPositionAnswers : Prop :=
  ∀ (p : Params) (b : Body p),
    (∀ wdata, decode p .host 0x00 wdata = .ok .getPosition) ∧
    (b.eng.life = .active →
      ∃ v : BitVec p.rdataWidth, v.toNat = b.eng.pos.toNat ∧
        exec .getPosition ⟨p, b⟩ = .next ⟨p, { b with out := { b.out with
          response := some ⟨.ok, v⟩
          emitted := b.out.emitted ++ (if p.obsSink = true then [.obs 0x00 v] else []) } }⟩) ∧
    (b.eng.life = .unconstructed →
      exec .getPosition ⟨p, b⟩ = .next ⟨p, { b with out := { b.out with response := some ⟨.errState, 0⟩ } }⟩)

/-- 43_host_ops.md R162: GET_DIRECTION, as above with 0 for Clockwise and 1 for CounterClockwise. -/
def Obligations.GetDirectionAnswers : Prop :=
  ∀ (p : Params) (b : Body p),
    (∀ wdata, decode p .host 0x01 wdata = .ok .getDirection) ∧
    (b.eng.life = .active →
      ∃ v : BitVec p.rdataWidth, v.toNat = (if b.eng.dir = .clockwise then 0 else 1) ∧
        exec .getDirection ⟨p, b⟩ = .next ⟨p, { b with out := { b.out with
          response := some ⟨.ok, v⟩
          emitted := b.out.emitted ++ (if p.obsSink = true then [.obs 0x01 v] else []) } }⟩) ∧
    (b.eng.life = .unconstructed →
      exec .getDirection ⟨p, b⟩ = .next ⟨p, { b with out := { b.out with response := some ⟨.errState, 0⟩ } }⟩)

/-- 43_host_ops.md R163: GET_PERIOD, as above with PERIOD in the low TS_WIDTH bits and PERIOD_VALID in bit TS_WIDTH. -/
def Obligations.GetPeriodAnswers : Prop :=
  ∀ (p : Params) (b : Body p),
    (∀ wdata, decode p .host 0x02 wdata = .ok .getPeriod) ∧
    (b.eng.life = .active →
      ∃ v : BitVec p.rdataWidth,
        v.toNat = (if b.eng.periodValid = true then 2 ^ p.tsWidth else 0) + b.eng.period.toNat ∧
        exec .getPeriod ⟨p, b⟩ = .next ⟨p, { b with out := { b.out with
          response := some ⟨.ok, v⟩
          emitted := b.out.emitted ++ (if p.obsSink = true then [.obs 0x02 v] else []) } }⟩) ∧
    (b.eng.life = .unconstructed →
      exec .getPeriod ⟨p, b⟩ = .next ⟨p, { b with out := { b.out with response := some ⟨.errState, 0⟩ } }⟩)

/-- 43_host_ops.md R164: GET_DIAGNOSTICS, as above with DIAG[A] in the low DIAG_WIDTH bits and DIAG[B] above it, both of one
state. -/
def Obligations.GetDiagnosticsAnswers : Prop :=
  ∀ (p : Params) (b : Body p),
    (∀ wdata, decode p .host 0x03 wdata = .ok .getDiagnostics) ∧
    (b.eng.life = .active →
      ∃ v : BitVec p.rdataWidth, v.toNat = b.eng.diag.b.toNat * 2 ^ p.diagWidth + b.eng.diag.a.toNat ∧
        exec .getDiagnostics ⟨p, b⟩ = .next ⟨p, { b with out := { b.out with
          response := some ⟨.ok, v⟩
          emitted := b.out.emitted ++ (if p.obsSink = true then [.obs 0x03 v] else []) } }⟩) ∧
    (b.eng.life = .unconstructed →
      exec .getDiagnostics ⟨p, b⟩ = .next ⟨p, { b with out := { b.out with response := some ⟨.errState, 0⟩ } }⟩)

/-- 43_host_ops.md R165: SET_ZERO is word 0x40 of the host port; on an Active engine it writes POS and nothing else, answers OK
with rdata 0 and emits nothing; Unconstructed it answers ERR_STATE and changes nothing. -/
def Obligations.SetZeroWritesPositionOnly : Prop :=
  ∀ (p : Params) (b : Body p),
    (∀ wdata, decode p .host 0x40 wdata = .ok .setZero) ∧
    (b.eng.life = .active →
      exec .setZero ⟨p, b⟩ = .next ⟨p, { b with
        eng := { b.eng with pos := 0 }
        out := { b.out with response := some ⟨.ok, 0⟩ } }⟩) ∧
    (b.eng.life = .unconstructed →
      exec .setZero ⟨p, b⟩ = .next ⟨p, { b with out := { b.out with response := some ⟨.errState, 0⟩ } }⟩)

/-- 20_memory.md R61: after a SET_ZERO, along any run without reset and without another SET_ZERO, CONSTRUCT or DESTROY, POS is
the sum of the steps of the edges ordered after it, and nothing of the edges before it. -/
def Obligations.StepsAfterSetZeroCountFromZero : Prop :=
  ∀ (p : Params) (b : Body p), b.eng.life = .active →
    ∃ m : Body p, exec .setZero ⟨p, b⟩ = .next ⟨p, m⟩ ∧
      ∀ n : Nat, NoReset n m → (∀ i ∈ trace n ⟨p, m⟩, setsOrigin i = false) →
        ∃ t : Body p, Runs n ⟨p, m⟩ ⟨p, t⟩ ∧
          t.eng.pos = BitVec.ofInt _ (pathSum b.eng.prev.a (samples .A (trace n ⟨p, m⟩)) +
            pathSum b.eng.prev.b (samples .B (trace n ⟨p, m⟩)))

/-- 43_host_ops.md R166: from every state a query writes no register and leaves the ports, the schedule, the inputs and the Edge
Source as they are; outside its response it can only add observability records, and only when OBS_SINK is true. -/
def Obligations.QueriesWriteNoRegister : Prop :=
  ∀ (p : Params) (b : Body p) (i : Instr), isQuery i = true →
    ∃ o : Outputs p, exec i ⟨p, b⟩ = .next ⟨p, { b with out := o }⟩ ∧ o.accepted = b.out.accepted ∧
      ∃ records, o.emitted = b.out.emitted ++ records ∧ (∀ e ∈ records, isObs e = true) ∧
        (p.obsSink = false → records = [])

/-- 60_exceptions.md R230: a step's observability records are one record of the query's word and its response's rdata when
OBS_SINK is true and the step is a query that responds OK, with no register changed, and none otherwise. -/
def Obligations.ObservabilityRecords : Prop :=
  ∀ (p : Params) (b t : Body p), step ⟨p, b⟩ = .next ⟨p, t⟩ →
    (∀ i v, p.obsSink = true → nextInstr ⟨p, b⟩ = some i → isQuery i = true → t.out.response = some ⟨.ok, v⟩ →
      t.out.emitted.filter isObs = [.obs (encodeWord i) v] ∧ t.eng = b.eng) ∧
    ((p.obsSink = false ∨ nextInstr ⟨p, b⟩ = none ∨ (∃ i, nextInstr ⟨p, b⟩ = some i ∧ isQuery i = false) ∨
        (∃ r, t.out.response = some r ∧ r.status ≠ .ok)) →
      t.out.emitted.filter isObs = [])

/-- 20_memory.md R56: repeated with nothing between, a query and SET_ZERO and DESTROY leave the same registers and give the same
response; a second CONSTRUCT after one that succeeded responds ERR_STATE and changes no register. -/
def Obligations.RepetitionOfHostOperations : Prop :=
  ∀ (p : Params) (b t : Body p),
    (∀ i, (isQuery i = true ∨ i = .setZero ∨ i = .destroy) → exec i ⟨p, b⟩ = .next ⟨p, t⟩ →
      ∃ u : Body p, exec i ⟨p, t⟩ = .next ⟨p, u⟩ ∧ u.eng = t.eng ∧ u.out.response = t.out.response) ∧
    (∀ i r, isConstruct i = true → exec i ⟨p, b⟩ = .next ⟨p, t⟩ → t.out.response = some r → r.status = .ok →
      ∃ u : Body p, exec i ⟨p, t⟩ = .next ⟨p, u⟩ ∧ u.eng = t.eng ∧ u.out.response = some ⟨.errState, 0⟩)

/-! ### CONSTRUCT and DESTROY -/

/-- 44_lifecycle.md R190, 10_state.md R39: on an Unconstructed engine, with different pins and both claims granted, CONSTRUCT
claims pin_a and then pin_b with both-edge triggering, writes every register to its value after CONSTRUCT, and answers OK. -/
def Obligations.ConstructSucceeds : Prop :=
  ∀ (p : Params) (b : Body p) (pinA pinB : Nat), b.eng.life = .unconstructed →
    (BitVec.ofNat p.pinIdWidth pinA ≠ BitVec.ofNat p.pinIdWidth pinB) → b.inp.grantA = true → b.inp.grantB = true →
    ∃ t : Body p, exec (.construct pinA pinB) ⟨p, b⟩ = .next ⟨p, t⟩ ∧
      t.eng.life = .active ∧ t.eng.pin = ⟨BitVec.ofNat _ pinA, BitVec.ofNat _ pinB⟩ ∧ t.eng.prev = ⟨0b00, 0b00⟩ ∧
      t.eng.pos = 0 ∧ t.eng.dir = .clockwise ∧ t.eng.ptPhase = false ∧ t.eng.ptStamp = 0 ∧ t.eng.period = 0 ∧
      t.eng.periodValid = false ∧ t.eng.diag = ⟨0, 0⟩ ∧
      t.out.response = some ⟨.ok, 0⟩ ∧ t.out.accepted = b.out.accepted ∧
      t.out.emitted = b.out.emitted ++ [.claim (BitVec.ofNat _ pinA) .both, .claim (BitVec.ofNat _ pinB) .both] ∧
      (∀ q, q ∈ t.edgeSource.registered ↔
        (q = BitVec.ofNat _ pinA ∨ q = BitVec.ofNat _ pinB ∨ q ∈ b.edgeSource.registered)) ∧
      t.ports = b.ports ∧ t.cycles = b.cycles ∧ t.inp = b.inp

/-- 44_lifecycle.md R191: a denied claim. With pin_a denied nothing else is claimed; with pin_a granted and pin_b denied, pin_a
is released in the same transaction. Either way the answer is HW_UNAVAILABLE, no register changes, and a registration that was
not there before is not there after; that the list after is the list before without pin_a rests on the model's form of the
registrations (log entry 7). -/
def Obligations.DeniedConstructRollsBack : Prop :=
  ∀ (p : Params) (b : Body p) (pinA pinB : Nat), b.eng.life = .unconstructed →
    (BitVec.ofNat p.pinIdWidth pinA ≠ BitVec.ofNat p.pinIdWidth pinB) →
    (b.inp.grantA = false →
      exec (.construct pinA pinB) ⟨p, b⟩ = .next ⟨p, { b with out := { b.out with
        response := some ⟨.hwUnavailable, 0⟩
        emitted := b.out.emitted ++ [.claim (BitVec.ofNat _ pinA) .both] } }⟩) ∧
    (b.inp.grantA = true → b.inp.grantB = false →
      ∃ e : EdgeSource p, exec (.construct pinA pinB) ⟨p, b⟩ = .next ⟨p, { b with
        edgeSource := e
        out := { b.out with
          response := some ⟨.hwUnavailable, 0⟩
          emitted := b.out.emitted ++ [.claim (BitVec.ofNat _ pinA) .both, .claim (BitVec.ofNat _ pinB) .both,
            .release (BitVec.ofNat _ pinA)] } }⟩ ∧
        (∀ q, q ∈ e.registered ↔ (q ≠ BitVec.ofNat _ pinA ∧ q ∈ b.edgeSource.registered)) ∧
        (b.edgeSource.registered = [] → e.registered = []))

/-- 44_lifecycle.md R192: with equal pins CONSTRUCT on an Unconstructed engine claims nothing, changes no register and answers
HW_UNAVAILABLE, whatever the Edge Source would answer. -/
def Obligations.ConstructWithEqualPins : Prop :=
  ∀ (p : Params) (b : Body p) (pin : Nat), b.eng.life = .unconstructed →
    exec (.construct pin pin) ⟨p, b⟩ =
      .next ⟨p, { b with out := { b.out with response := some ⟨.hwUnavailable, 0⟩ } }⟩

/-- 44_lifecycle.md R193: CONSTRUCT while Active answers ERR_STATE, claims nothing and changes no register, for every two pins,
equal ones too. -/
def Obligations.ConstructWhileActive : Prop :=
  ∀ (p : Params) (b : Body p) (pinA pinB : Nat), b.eng.life = .active →
    exec (.construct pinA pinB) ⟨p, b⟩ =
      .next ⟨p, { b with out := { b.out with response := some ⟨.errState, 0⟩ } }⟩

/-- 44_lifecycle.md R194, 10_state.md R39: DESTROY on an Active engine releases PIN[A] and then PIN[B], writes every register to
its power-on value and answers OK; neither pin is registered after it. -/
def Obligations.DestroyReleasesAndClears : Prop :=
  ∀ (p : Params) (b : Body p), b.eng.life = .active →
    ∃ t : Body p, exec .destroy ⟨p, b⟩ = .next ⟨p, t⟩ ∧
      t.eng.life = .unconstructed ∧ t.eng.pin = ⟨0, 0⟩ ∧ t.eng.prev = ⟨0b00, 0b00⟩ ∧ t.eng.pos = 0 ∧
      t.eng.dir = .clockwise ∧ t.eng.ptPhase = false ∧ t.eng.ptStamp = 0 ∧ t.eng.period = 0 ∧
      t.eng.periodValid = false ∧ t.eng.diag = ⟨0, 0⟩ ∧
      t.out.response = some ⟨.ok, 0⟩ ∧ t.out.accepted = b.out.accepted ∧
      t.out.emitted = b.out.emitted ++ [.release b.eng.pin.a, .release b.eng.pin.b] ∧
      (∀ q, q ∈ t.edgeSource.registered ↔
        (q ≠ b.eng.pin.a ∧ q ≠ b.eng.pin.b ∧ q ∈ b.edgeSource.registered)) ∧
      t.ports = b.ports ∧ t.cycles = b.cycles ∧ t.inp = b.inp

/-- 44_lifecycle.md R195: DESTROY when Unconstructed answers OK, emits nothing and changes nothing. -/
def Obligations.DestroyWhenUnconstructed : Prop :=
  ∀ (p : Params) (b : Body p), b.eng.life = .unconstructed →
    exec .destroy ⟨p, b⟩ = .next ⟨p, { b with out := { b.out with response := some ⟨.ok, 0⟩ } }⟩

/-- 44_lifecycle.md R196: DESTROY and then CONSTRUCT with both claims granted is a new construction: whatever the registers held,
every one has its value after CONSTRUCT. -/
def Obligations.ReconstructionStartsAfresh : Prop :=
  ∀ (p : Params) (b : Body p) (pinA pinB : Nat), b.inp.grantA = true → b.inp.grantB = true →
    (BitVec.ofNat p.pinIdWidth pinA ≠ BitVec.ofNat p.pinIdWidth pinB) →
    ∃ m t : Body p, exec .destroy ⟨p, b⟩ = .next ⟨p, m⟩ ∧ exec (.construct pinA pinB) ⟨p, m⟩ = .next ⟨p, t⟩ ∧
      t.out.response = some ⟨.ok, 0⟩ ∧
      t.eng = { life := .active, pin := ⟨BitVec.ofNat _ pinA, BitVec.ofNat _ pinB⟩, prev := ⟨0b00, 0b00⟩, pos := 0,
                dir := .clockwise, ptPhase := false, ptStamp := 0, period := 0, periodValid := false, diag := ⟨0, 0⟩ }

/-! ### Rules about the whole machine -/

/-- 10_state.md R22: which instructions may write which register, over all nine instructions and every state. -/
def Obligations.RegisterWriteMatrix : Prop :=
  ∀ (p : Params) (b t : Body p) (i : Instr), exec i ⟨p, b⟩ = .next ⟨p, t⟩ →
    let lifecycle := isConstruct i = true ∨ i = .destroy
    let edgeA := sampleOf .A i ≠ none
    let edgeB := sampleOf .B i ≠ none
    (t.eng.life ≠ b.eng.life → lifecycle) ∧
    (t.eng.pin ≠ b.eng.pin → lifecycle) ∧
    (t.eng.prev.a ≠ b.eng.prev.a → edgeA ∨ lifecycle) ∧
    (t.eng.prev.b ≠ b.eng.prev.b → edgeB ∨ lifecycle) ∧
    (t.eng.pos ≠ b.eng.pos → edgeA ∨ edgeB ∨ i = .setZero ∨ lifecycle) ∧
    (t.eng.dir ≠ b.eng.dir → edgeA ∨ edgeB ∨ lifecycle) ∧
    (t.eng.ptPhase ≠ b.eng.ptPhase → edgeA ∨ edgeB ∨ lifecycle) ∧
    (t.eng.ptStamp ≠ b.eng.ptStamp → edgeA ∨ edgeB ∨ lifecycle) ∧
    (t.eng.period ≠ b.eng.period → edgeA ∨ edgeB ∨ lifecycle) ∧
    (t.eng.periodValid ≠ b.eng.periodValid → edgeA ∨ edgeB ∨ lifecycle) ∧
    (t.eng.diag.a ≠ b.eng.diag.a → edgeA ∨ lifecycle) ∧
    (t.eng.diag.b ≠ b.eng.diag.b → edgeB ∨ lifecycle)

/-- 10_state.md R33, 60_exceptions.md R228: over every step, LIFE becomes Active only by a CONSTRUCT that responds OK, and
Unconstructed only by a DESTROY or a reset cycle. -/
def Obligations.LifeChangesOnlyByLifecycle : Prop :=
  ∀ (p : Params) (b t : Body p), step ⟨p, b⟩ = .next ⟨p, t⟩ →
    (b.eng.life = .unconstructed → t.eng.life = .active →
      (∃ i, nextInstr ⟨p, b⟩ = some i ∧ isConstruct i = true) ∧ t.out.response = some ⟨.ok, 0⟩) ∧
    (b.eng.life = .active → t.eng.life = .unconstructed →
      nextInstr ⟨p, b⟩ = some .destroy ∨ ∃ c ∈ b.cycles.take 1, c.rst = true)

/-- 41_pulse_timer.md R127, 10_state.md R30: over every step from an Active engine, PERIOD_VALID once 1 stays 1 until DESTROY or
reset, and becomes 1 only by an edge that finds PT_PHASE 1; PERIOD changes only by such an edge, DESTROY or reset. -/
def Obligations.PeriodStaysUntilTheNextPair : Prop :=
  ∀ (p : Params) (b t : Body p), step ⟨p, b⟩ = .next ⟨p, t⟩ → b.eng.life = .active →
    (t.eng.periodValid ≠ b.eng.periodValid ∨ t.eng.period ≠ b.eng.period) →
    ((∃ i, nextInstr ⟨p, b⟩ = some i ∧ isEdge i = true) ∧ b.eng.ptPhase = true ∧ t.eng.periodValid = true) ∨
      nextInstr ⟨p, b⟩ = some .destroy ∨ ∃ c ∈ b.cycles.take 1, c.rst = true

/-! ### Invariants -/

/-- 10_state.md R39, R41: the registers' invariant holds after reset. -/
def Obligations.RegistersSoundAtReset : Prop := RegistersSound State.reset

/-- 10_state.md R39, R41, 44_lifecycle.md R192: every step keeps it, whatever is presented and scheduled. -/
def Obligations.EveryStepKeepsRegistersSound : Prop :=
  ∀ s t : State, RegistersSound s → step s = .next t → RegistersSound t

/-- 10_state.md R28: PT_PHASE is the parity of the edges counted, after reset. -/
def Obligations.PhaseIsEdgeParityAtReset : Prop := PhaseIsEdgeParity State.reset

/-- 10_state.md R28, R31, 41_pulse_timer.md R124: every step keeps it, the wraps of DIAG included. -/
def Obligations.EveryStepKeepsPhaseParity : Prop :=
  ∀ s t : State, PhaseIsEdgeParity s → step s = .next t → PhaseIsEdgeParity t

/-- 10_state.md R40: the Edge Source holds no registration after reset, and the engine is Unconstructed. -/
def Obligations.RegistrationsMatchAtReset : Prop := RegistrationsMatch State.reset

/-- 10_state.md R40, 44_lifecycle.md R197: every step keeps LIFE and the Edge Source's registrations in agreement, as long as
the platform resets the Edge Source with the engine. -/
def Obligations.EveryStepKeepsRegistrations : Prop :=
  ∀ s t : State, RegistrationsMatch s → OneResetDomain s → step s = .next t → RegistrationsMatch t

/-- 70_reset_and_hazards.md R252: a reset of an Active engine alone leaves both pins' registrations dangling at the Edge Source. -/
def Obligations.ResetAloneLeavesPinsRegistered : Prop :=
  ∀ (p : Params) (b : Body p) (c : Cycle) (rest : List Cycle), b.cycles = c :: rest →
    c.rst = true → c.edgeSourceRst = false → b.eng.life = .active → RegistrationsMatch ⟨p, b⟩ →
    ∃ t : Body p, step ⟨p, b⟩ = .next ⟨p, t⟩ ∧ t.eng.life = .unconstructed ∧
      b.eng.pin.a ∈ t.edgeSource.registered ∧ b.eng.pin.b ∈ t.edgeSource.registered ∧ t.out.emitted = []

/-! ### The assembler, the host's duties, one step of POS -/

/-- 30_encoding.md R85: the word and write data of each line of the syntax table in numbers; the line of an instruction, with
`@t` on an edge line and with a comment, assembles to that instruction and that `@t`. -/
def Obligations.AssemblerLinesNameTheirWords : Prop :=
  (∀ la lb : Bool, (encodeWord (.edgeA la lb)).toNat = 0x80 + 2 * la.toNat + lb.toNat ∧
    (encodeWord (.edgeB la lb)).toNat = 0x84 + 2 * la.toNat + lb.toNat) ∧
  encodeWord .getPosition = 0x00 ∧ encodeWord .getDirection = 0x01 ∧ encodeWord .getPeriod = 0x02 ∧
  encodeWord .getDiagnostics = 0x03 ∧ encodeWord .setZero = 0x40 ∧ encodeWord .destroy = 0x42 ∧
  (∀ (p : Params) (pinA pinB : Nat), encodeWord (.construct pinA pinB) = 0x41 ∧
    (pinA < 2 ^ p.pinIdWidth → pinB < 2 ^ p.pinIdWidth →
      (encodeWdata p (.construct pinA pinB)).toNat = pinB * 2 ^ p.pinIdWidth + pinA)) ∧
  (∀ (i : Instr) (now : Option Nat) (comment : String), (now = none ∨ isEdge i = true) →
    assemble (listingLine i now) = some (i, now) ∧
    assemble (listingLine i now ++ " ;" ++ comment) = some (i, now)) ∧
  (∀ (i : Instr) (t : Nat), isEdge i = false → assemble (listingLine i (some t)) = none)

/-- 60_exceptions.md R225, 70_reset_and_hazards.md R242, R244, R248, R252: in every state the host has one transaction outstanding
at a time, its next request being presented only with the response to the one before; with a host that keeps its duties in the
next cycle, a query or SET_ZERO responds OK and no step leaves registrations dangling, even when the platform resets the engine
alone; and a host that tests PERIOD_VALID reads a period exactly where there is one. The list of requests and the list of
registrations are the model's form (log entries 7, 16). -/
def Obligations.DutifulHostIsServed : Prop :=
  ∀ (p : Params) (b t : Body p), step ⟨p, b⟩ = .next ⟨p, t⟩ →
    (t.out.accepted = some .host → b.ports.hostPresents.isSome = true ∧ t.out.response.isSome = true ∧
      t.ports.hostPresents = b.ports.host.tail.head?) ∧
    (t.out.accepted ≠ some .host → t.ports.hostPresents = b.ports.hostPresents) ∧
    (DutifulHost ⟨p, b⟩ →
      (∀ i, nextInstr ⟨p, b⟩ = some i → (isQuery i = true ∨ i = .setZero) → ∃ v, t.out.response = some ⟨.ok, v⟩) ∧
      (RegistrationsMatch ⟨p, b⟩ → RegistrationsMatch ⟨p, t⟩)) ∧
    (∀ v, nextInstr ⟨p, b⟩ = some .getPeriod → t.out.response = some ⟨.ok, v⟩ →
      periodRead p v = if b.eng.periodValid = true then some b.eng.period.toNat else none)

/-- 20_memory.md R60, 10_state.md R25: one step from an Active engine that is no reset, no SET_ZERO and no DESTROY keeps it Active
and adds to POS the step of the edge it carries out, if it carries one out, and otherwise leaves POS; a CONSTRUCT, which is an
error while Active, is no exception. -/
def Obligations.EveryStepAddsItsStepOnce : Prop :=
  ∀ (p : Params) (b t : Body p), step ⟨p, b⟩ = .next ⟨p, t⟩ → b.eng.life = .active → NoReset 1 b →
    nextInstr ⟨p, b⟩ ≠ some .setZero → nextInstr ⟨p, b⟩ ≠ some .destroy →
      t.eng.life = .active ∧
      t.eng.pos = BitVec.ofInt _ (b.eng.pos.toInt +
        pathSum b.eng.prev.a (samples .A (nextInstr ⟨p, b⟩).toList) +
        pathSum b.eng.prev.b (samples .B (nextInstr ⟨p, b⟩).toList))
end

