-- ==== Sys2Proof/Laws/Assembler.lean ====
section
/-! SUPPORT. The assembler's parts: what it reads from a printed number, from two operands and from a line, so that no later proof
unfolds them (30_encoding.md R85). -/

namespace Sys2Proof

/-- No character of a text separates anything in a line. -/
def Plain (cs : List Char) : Prop := ∀ c ∈ cs, c ≠ ' ' ∧ c ≠ ',' ∧ c ≠ '@' ∧ c ≠ ';'

theorem toDigits_all_isDigit (n : Nat) : (Nat.toDigits 10 n).all Char.isDigit = true := by
  simp only [List.all_eq_true]
  exact fun c hc => Nat.isDigit_of_mem_toDigits (by decide) (by decide) hc

theorem toDigits_plain (n : Nat) : Plain (Nat.toDigits 10 n) := by
  intro c hc
  have := Nat.isDigit_of_mem_toDigits (by decide) (by decide) hc
  refine ⟨?_, ?_, ?_, ?_⟩ <;> rintro rfl <;> exact absurd this (by decide)

theorem foldl_digitValue (cs : List Char) (h : cs.all Char.isDigit = true) (n : Nat) :
    cs.foldl (fun n c => 10 * n + digitValue c) n = Nat.ofDigitChars 10 cs n := by
  induction cs generalizing n with
  | nil => simp
  | cons c cs ih =>
    simp only [List.all_cons, Bool.and_eq_true] at h
    rw [Nat.ofDigitChars_cons, List.foldl_cons, ih h.2]
    simp [digitValue, h.1]

/-- A number printed in decimal is read back. -/
theorem numberOf_toDigits (n : Nat) : numberOf (Nat.toDigits 10 n) = some n := by
  have h := toDigits_all_isDigit n
  have hv : digitsValue 10 (Nat.toDigits 10 n) = n := by
    rw [digitsValue, foldl_digitValue _ h]
    exact Nat.ofDigitChars_ten_toDigits
  unfold numberOf
  split
  · rename_i e; exact absurd e Nat.toDigits_ne_nil
  · rename_i e; rw [e] at h; simp at h
  · rename_i e; rw [← e, h, hv]; rfl

theorem commaPieces_plain (a : List Char) (h : Plain a) : commaPieces a = [a] := by
  induction a with
  | nil => rfl
  | cons c cs ih => rw [commaPieces, if_neg (h c (by simp)).2.1, ih (fun x hx => h x (by simp [hx]))]

theorem commaPieces_pair (a b : List Char) (ha : Plain a) (hb : Plain b) : commaPieces (a ++ ',' :: b) = [a, b] := by
  induction a with
  | nil => simp [commaPieces, commaPieces_plain b hb]
  | cons c cs ih =>
    rw [List.cons_append, commaPieces, if_neg (ha c (by simp)).2.1, ih (fun x hx => ha x (by simp [hx]))]

/-- Two operands are read in their order. -/
theorem operandsOf_pair {x y : Nat} {a b : List Char} (ha : Plain a) (hb : Plain b) (hx : numberOf a = some x)
    (hy : numberOf b = some y) : operandsOf (a ++ ',' :: b) = some [x, y] := by
  unfold operandsOf
  split
  · rename_i h; simp at h
  · rename_i h; rw [← h, commaPieces_pair a b ha hb]; simp [hx, hy]

theorem mnemonicText_plain (i : Instr) : Plain (mnemonicText i).toList := by cases i <;> simp [Plain, mnemonicText]

/-- A mnemonic names its own transaction: no other name is read as it. -/
theorem instrOf_mnemonic {name : List Char} {operands : List Nat} {i : Instr} (h : instrOf name operands = some i) :
    name = (mnemonicText i).toList := by
  unfold instrOf at h
  repeat' split at h
  all_goals first | (cases h; assumption) | (exact absurd h (by simp))

/-- A line of a mnemonic and a rest: the rest without blanks is operands up to `@`, and the `@t`. -/
theorem assembleChars_eq (name rest operands time : List Char) (hn : Plain name)
    (hr : rest = [] ∨ rest.head? = some ' ') (hf : rest.filter (· ≠ ' ') = operands ++ time)
    (ho : ∀ c ∈ operands, c ≠ '@') (ht : time = [] ∨ time.head? = some '@') :
    assembleChars (name ++ rest) =
      (do let ops ← operandsOf operands; let i ← instrOf name ops; let t ← timeOf i time; pure (i, t)) := by
  have hname : ∀ c ∈ name, decide (c ≠ ' ') = true := fun c hc => by simpa using (hn c hc).1
  have hops : ∀ c ∈ operands, decide (c ≠ '@') = true := fun c hc => by simpa using ho c hc
  have h1 : (name ++ rest).takeWhile (· ≠ ' ') = name ∧ (name ++ rest).dropWhile (· ≠ ' ') = rest := by
    rw [List.takeWhile_append_of_pos hname, List.dropWhile_append_of_pos hname]
    cases rest with
    | nil => simp
    | cons x r => simp at hr; subst hr; simp
  have h2 : (operands ++ time).takeWhile (· ≠ '@') = operands ∧ (operands ++ time).dropWhile (· ≠ '@') = time := by
    rw [List.takeWhile_append_of_pos hops, List.dropWhile_append_of_pos hops]
    cases time with
    | nil => simp
    | cons x r => simp at ht; subst ht; simp
  unfold assembleChars
  simp only [h1.1, h1.2, hf, h2.1, h2.2]

end Sys2Proof
end

