-- ==== Sys2Proof/Laws/State.lean ====
section
/-! SUPPORT. One lemma per field per update, tagged simp, so that no proof unfolds a record update. -/

namespace Sys2Proof.Machine

/-! ### Per-channel pairs -/

section PerChannel

variable {α : Type} (x : PerChannel α) (v : α)

@[simp] theorem PerChannel.get_A : x.get .A = x.a := rfl
@[simp] theorem PerChannel.get_B : x.get .B = x.b := rfl
@[simp] theorem PerChannel.set_A_a : (x.set .A v).a = v := rfl
@[simp] theorem PerChannel.set_A_b : (x.set .A v).b = x.b := rfl
@[simp] theorem PerChannel.set_B_a : (x.set .B v).a = x.a := rfl
@[simp] theorem PerChannel.set_B_b : (x.set .B v).b = v := rfl

@[simp] theorem PerChannel.get_set_same (c : Channel) : (x.set c v).get c = v := by cases c <;> rfl

theorem PerChannel.get_set_other {c c' : Channel} (h : c' ≠ c) : (x.set c v).get c' = x.get c' := by
  cases c <;> cases c' <;> simp_all [PerChannel.get, PerChannel.set]

theorem PerChannel.ext_get {x y : PerChannel α} (h : ∀ c, x.get c = y.get c) : x = y := by
  cases x; cases y
  simpa using And.intro (h .A) (h .B)

end PerChannel

/-! ### What the host presents -/

@[simp] theorem Ports.hostPresents_nil {p : Params} (ea eb : List TxWord) :
    (⟨ea, eb, []⟩ : Ports p).hostPresents = none := rfl
@[simp] theorem Ports.hostPresents_cons {p : Params} (ea eb : List TxWord) (r : HostRequest p) (rs : List (HostRequest p)) :
    (⟨ea, eb, r :: rs⟩ : Ports p).hostPresents = some r := rfl

variable {p : Params} (b : Body p)

/-! ### Emitting and responding -/

section Output

variable (r : Emission p) (st : Status) (v : BitVec p.rdataWidth)

@[simp] theorem Body.emit_eng : (b.emit r).eng = b.eng := rfl
@[simp] theorem Body.emit_edgeSource : (b.emit r).edgeSource = b.edgeSource := rfl
@[simp] theorem Body.emit_ports : (b.emit r).ports = b.ports := rfl
@[simp] theorem Body.emit_cycles : (b.emit r).cycles = b.cycles := rfl
@[simp] theorem Body.emit_inp : (b.emit r).inp = b.inp := rfl
@[simp] theorem Body.emit_out : (b.emit r).out = { b.out with emitted := b.out.emitted ++ [r] } := rfl

@[simp] theorem Body.respond_eng : (b.respond st v).eng = b.eng := rfl
@[simp] theorem Body.respond_edgeSource : (b.respond st v).edgeSource = b.edgeSource := rfl
@[simp] theorem Body.respond_ports : (b.respond st v).ports = b.ports := rfl
@[simp] theorem Body.respond_cycles : (b.respond st v).cycles = b.cycles := rfl
@[simp] theorem Body.respond_inp : (b.respond st v).inp = b.inp := rfl
@[simp] theorem Body.respond_out : (b.respond st v).out = { b.out with response := some ⟨st, v⟩ } := rfl

@[simp] theorem Body.raise_eng : (b.raise st).eng = b.eng := rfl
@[simp] theorem Body.raise_edgeSource : (b.raise st).edgeSource = b.edgeSource := rfl
@[simp] theorem Body.raise_ports : (b.raise st).ports = b.ports := rfl
@[simp] theorem Body.raise_cycles : (b.raise st).cycles = b.cycles := rfl
@[simp] theorem Body.raise_inp : (b.raise st).inp = b.inp := rfl
@[simp] theorem Body.raise_out : (b.raise st).out = { b.out with response := some ⟨st, 0⟩ } := rfl

end Output

/-! ### Claims, releases, observability records -/

section EdgeSource

variable (pin : BitVec p.pinIdWidth) (g : Bool) (w : TxWord) (v : BitVec p.rdataWidth)

@[simp] theorem Body.claim_eng : (b.claim pin g).eng = b.eng := by cases g <;> rfl
@[simp] theorem Body.claim_ports : (b.claim pin g).ports = b.ports := by cases g <;> rfl
@[simp] theorem Body.claim_cycles : (b.claim pin g).cycles = b.cycles := by cases g <;> rfl
@[simp] theorem Body.claim_inp : (b.claim pin g).inp = b.inp := by cases g <;> rfl
@[simp] theorem Body.claim_out :
    (b.claim pin g).out = { b.out with emitted := b.out.emitted ++ [.claim pin .both] } := by cases g <;> rfl
@[simp] theorem Body.claim_granted_registered :
    (b.claim pin true).edgeSource.registered = b.edgeSource.registered.insert pin := rfl
@[simp] theorem Body.claim_denied_edgeSource : (b.claim pin false).edgeSource = b.edgeSource := rfl

@[simp] theorem Body.release_eng : (b.release pin).eng = b.eng := rfl
@[simp] theorem Body.release_ports : (b.release pin).ports = b.ports := rfl
@[simp] theorem Body.release_cycles : (b.release pin).cycles = b.cycles := rfl
@[simp] theorem Body.release_inp : (b.release pin).inp = b.inp := rfl
@[simp] theorem Body.release_out :
    (b.release pin).out = { b.out with emitted := b.out.emitted ++ [.release pin] } := rfl
@[simp] theorem Body.release_registered :
    (b.release pin).edgeSource.registered = b.edgeSource.registered.filter (fun q => decide (q ≠ pin)) := rfl

@[simp] theorem Body.observe_eng : (b.observe w v).eng = b.eng := by unfold Body.observe; split <;> rfl
@[simp] theorem Body.observe_edgeSource : (b.observe w v).edgeSource = b.edgeSource := by
  unfold Body.observe; split <;> rfl
@[simp] theorem Body.observe_ports : (b.observe w v).ports = b.ports := by unfold Body.observe; split <;> rfl
@[simp] theorem Body.observe_cycles : (b.observe w v).cycles = b.cycles := by unfold Body.observe; split <;> rfl
@[simp] theorem Body.observe_inp : (b.observe w v).inp = b.inp := by unfold Body.observe; split <;> rfl
@[simp] theorem Body.observe_out :
    (b.observe w v).out = { b.out with emitted := b.out.emitted ++ if p.obsSink = true then [.obs w v] else [] } := by
  unfold Body.observe
  split <;> simp_all

end EdgeSource

/-! ### Whole-register updates -/

@[simp] theorem Body.clearRegisters_eng : b.clearRegisters.eng = Engine.powerOn p := rfl
@[simp] theorem Body.clearRegisters_edgeSource : b.clearRegisters.edgeSource = b.edgeSource := rfl
@[simp] theorem Body.clearRegisters_ports : b.clearRegisters.ports = b.ports := rfl
@[simp] theorem Body.clearRegisters_cycles : b.clearRegisters.cycles = b.cycles := rfl
@[simp] theorem Body.clearRegisters_inp : b.clearRegisters.inp = b.inp := rfl
@[simp] theorem Body.clearRegisters_out : b.clearRegisters.out = b.out := rfl

@[simp] theorem Body.powerOnReset_eng (k : Bool) : (b.powerOnReset k).eng = Engine.powerOn p := rfl
@[simp] theorem Body.powerOnReset_ports (k : Bool) : (b.powerOnReset k).ports = b.ports := rfl
@[simp] theorem Body.powerOnReset_cycles (k : Bool) : (b.powerOnReset k).cycles = b.cycles := rfl
@[simp] theorem Body.powerOnReset_inp (k : Bool) : (b.powerOnReset k).inp = b.inp := rfl
@[simp] theorem Body.powerOnReset_out (k : Bool) : (b.powerOnReset k).out = b.out := rfl
@[simp] theorem Body.powerOnReset_edgeSource (k : Bool) :
    (b.powerOnReset k).edgeSource = if k = true then ⟨[]⟩ else b.edgeSource := rfl

@[simp] theorem Body.illegalWord_eng (port : Port) : (b.illegalWord port).eng = b.eng := by cases port <;> rfl
@[simp] theorem Body.illegalWord_edgeSource (port : Port) : (b.illegalWord port).edgeSource = b.edgeSource := by
  cases port <;> rfl
@[simp] theorem Body.illegalWord_ports (port : Port) : (b.illegalWord port).ports = b.ports := by cases port <;> rfl
@[simp] theorem Body.illegalWord_cycles (port : Port) : (b.illegalWord port).cycles = b.cycles := by cases port <;> rfl
@[simp] theorem Body.illegalWord_inp (port : Port) : (b.illegalWord port).inp = b.inp := by cases port <;> rfl

@[simp] theorem Body.zeroPosition_eng : b.zeroPosition.eng = { b.eng with pos := 0 } := rfl
@[simp] theorem Body.zeroPosition_edgeSource : b.zeroPosition.edgeSource = b.edgeSource := rfl
@[simp] theorem Body.zeroPosition_ports : b.zeroPosition.ports = b.ports := rfl
@[simp] theorem Body.zeroPosition_cycles : b.zeroPosition.cycles = b.cycles := rfl
@[simp] theorem Body.zeroPosition_inp : b.zeroPosition.inp = b.inp := rfl
@[simp] theorem Body.zeroPosition_out : b.zeroPosition.out = b.out := rfl

end Sys2Proof.Machine
end

