-- ==== Sys2Proof/Laws/Edge.lean ====
section
/-! SUPPORT. The decode table against the rule it is derived from, the pulse timer, and the steps of an edge: what each leaves
and what each writes. -/

namespace Sys2Proof.Machine

variable {p : Params}

/-- Every pair of channel states has a table entry, the one the forward cycle gives (40_decode_table.md R102, R103, R106). -/
theorem DT_tableIndex (prev cur : ChanState) :
    ∃ st, DT (tableIndex prev cur) = some st ∧ st.toInt = stepRule prev cur := by
  have key : ∀ prev cur : ChanState, (DT (tableIndex prev cur)).map GrayStep.toInt = some (stepRule prev cur) := by decide
  simpa using key prev cur

/-- A step is -1, 0 or +1 (10_state.md R36). -/
theorem stepRule_cases (prev cur : ChanState) : stepRule prev cur = -1 ∨ stepRule prev cur = 0 ∨ stepRule prev cur = 1 := by
  revert prev cur; decide

/-- `duration` is subtraction modulo 2^TS_WIDTH (41_pulse_timer.md R123). -/
theorem duration_eq_sub (now stamp : BitVec p.tsWidth) : duration now stamp = now - stamp := by
  apply BitVec.eq_of_toInt_eq
  rw [duration, BitVec.toInt_sub, BitVec.toInt_ofInt, BitVec.toInt_eq_toNat_bmod now, BitVec.toInt_eq_toNat_bmod stamp,
    Int.bmod_sub_bmod, Int.sub_bmod_bmod]

section Timer

variable (now : BitVec p.tsWidth) (e : Engine p)

@[simp] theorem recordEdge_life : (recordEdge now e).2.life = e.life := by unfold recordEdge; split <;> rfl
@[simp] theorem recordEdge_pin : (recordEdge now e).2.pin = e.pin := by unfold recordEdge; split <;> rfl
@[simp] theorem recordEdge_prev : (recordEdge now e).2.prev = e.prev := by unfold recordEdge; split <;> rfl
@[simp] theorem recordEdge_pos : (recordEdge now e).2.pos = e.pos := by unfold recordEdge; split <;> rfl
@[simp] theorem recordEdge_dir : (recordEdge now e).2.dir = e.dir := by unfold recordEdge; split <;> rfl
@[simp] theorem recordEdge_diag : (recordEdge now e).2.diag = e.diag := by unfold recordEdge; split <;> rfl
@[simp] theorem recordEdge_ptPhase : (recordEdge now e).2.ptPhase = !e.ptPhase := by
  unfold recordEdge; split <;> simp_all

/-- The pulse timer's registers after one call (41_pulse_timer.md R121). -/
theorem recordEdge_timerEffect : TimerEffect now e (recordEdge now e).2 := by
  unfold recordEdge TimerEffect
  split <;> simp_all [duration_eq_sub]

/-- What a call returns: nothing on an odd-numbered call, the published period on an even-numbered one (R120, R121). -/
theorem recordEdge_result :
    (recordEdge now e).1 = if e.ptPhase = true then some (recordEdge now e).2.period else none := by
  unfold recordEdge; split <;> simp_all

end Timer

section Step

variable (st : GrayStep) (c : Channel) (cur : ChanState) (e : Engine p)

@[simp] theorem Engine.applyStep_life : (e.applyStep st).life = e.life := by cases st <;> rfl
@[simp] theorem Engine.applyStep_pin : (e.applyStep st).pin = e.pin := by cases st <;> rfl
@[simp] theorem Engine.applyStep_prev : (e.applyStep st).prev = e.prev := by cases st <;> rfl
@[simp] theorem Engine.applyStep_ptPhase : (e.applyStep st).ptPhase = e.ptPhase := by cases st <;> rfl
@[simp] theorem Engine.applyStep_ptStamp : (e.applyStep st).ptStamp = e.ptStamp := by cases st <;> rfl
@[simp] theorem Engine.applyStep_period : (e.applyStep st).period = e.period := by cases st <;> rfl
@[simp] theorem Engine.applyStep_periodValid : (e.applyStep st).periodValid = e.periodValid := by cases st <;> rfl
@[simp] theorem Engine.applyStep_diag : (e.applyStep st).diag = e.diag := by cases st <;> rfl
@[simp] theorem Engine.applyStep_dir : (e.applyStep st).dir = dirAfter e.dir st := by cases st <;> rfl

/-- POS after a step, the zero step included (42_edge_events.md R140, R150). -/
@[simp] theorem Engine.applyStep_pos : (e.applyStep st).pos = BitVec.ofInt _ (e.pos.toInt + st.toInt) := by
  cases st <;> simp [Engine.applyStep, GrayStep.toInt]

@[simp] theorem Engine.setPrev_life : (e.setPrev c cur).life = e.life := rfl
@[simp] theorem Engine.setPrev_pin : (e.setPrev c cur).pin = e.pin := rfl
@[simp] theorem Engine.setPrev_prev : (e.setPrev c cur).prev = e.prev.set c cur := rfl
@[simp] theorem Engine.setPrev_pos : (e.setPrev c cur).pos = e.pos := rfl
@[simp] theorem Engine.setPrev_dir : (e.setPrev c cur).dir = e.dir := rfl
@[simp] theorem Engine.setPrev_ptPhase : (e.setPrev c cur).ptPhase = e.ptPhase := rfl
@[simp] theorem Engine.setPrev_ptStamp : (e.setPrev c cur).ptStamp = e.ptStamp := rfl
@[simp] theorem Engine.setPrev_period : (e.setPrev c cur).period = e.period := rfl
@[simp] theorem Engine.setPrev_periodValid : (e.setPrev c cur).periodValid = e.periodValid := rfl
@[simp] theorem Engine.setPrev_diag : (e.setPrev c cur).diag = e.diag := rfl

@[simp] theorem Engine.countEdge_life : (e.countEdge c).life = e.life := rfl
@[simp] theorem Engine.countEdge_pin : (e.countEdge c).pin = e.pin := rfl
@[simp] theorem Engine.countEdge_prev : (e.countEdge c).prev = e.prev := rfl
@[simp] theorem Engine.countEdge_pos : (e.countEdge c).pos = e.pos := rfl
@[simp] theorem Engine.countEdge_dir : (e.countEdge c).dir = e.dir := rfl
@[simp] theorem Engine.countEdge_ptPhase : (e.countEdge c).ptPhase = e.ptPhase := rfl
@[simp] theorem Engine.countEdge_ptStamp : (e.countEdge c).ptStamp = e.ptStamp := rfl
@[simp] theorem Engine.countEdge_period : (e.countEdge c).period = e.period := rfl
@[simp] theorem Engine.countEdge_periodValid : (e.countEdge c).periodValid = e.periodValid := rfl

/-- DIAG[c] adds 1 modulo 2^DIAG_WIDTH (42_edge_events.md R151). -/
@[simp] theorem Engine.countEdge_diag : (e.countEdge c).diag = e.diag.set c (e.diag.get c + 1) := by
  simp [Engine.countEdge, BitVec.ofNat_add]

end Step

/-- DIR after a step in terms of the step's value (10_state.md R27). -/
theorem dirAfter_eq (d : Dir) (st : GrayStep) :
    dirAfter d st = if st.toInt = 1 then .clockwise else if st.toInt = -1 then .counterClockwise else d := by
  cases st <;> rfl

section AfterEdge

variable (c : Channel) (cur : ChanState) (now : BitVec p.tsWidth) (st : GrayStep) (e : Engine p)

@[simp] theorem Engine.afterEdge_life : (e.afterEdge c cur now st).life = e.life := by simp [Engine.afterEdge]
@[simp] theorem Engine.afterEdge_pin : (e.afterEdge c cur now st).pin = e.pin := by simp [Engine.afterEdge]
@[simp] theorem Engine.afterEdge_prev : (e.afterEdge c cur now st).prev = e.prev.set c cur := by simp [Engine.afterEdge]
@[simp] theorem Engine.afterEdge_pos :
    (e.afterEdge c cur now st).pos = BitVec.ofInt _ (e.pos.toInt + st.toInt) := by simp [Engine.afterEdge]
@[simp] theorem Engine.afterEdge_dir : (e.afterEdge c cur now st).dir = dirAfter e.dir st := by simp [Engine.afterEdge]
@[simp] theorem Engine.afterEdge_ptPhase : (e.afterEdge c cur now st).ptPhase = !e.ptPhase := by simp [Engine.afterEdge]
@[simp] theorem Engine.afterEdge_diag :
    (e.afterEdge c cur now st).diag = e.diag.set c (e.diag.get c + 1) := by simp [Engine.afterEdge]

/-- The pulse timer's part of an edge (41_pulse_timer.md R121). -/
theorem Engine.afterEdge_timerEffect : TimerEffect now e (e.afterEdge c cur now st) := by
  have h := recordEdge_timerEffect now ((e.applyStep st).setPrev c cur)
  simpa [Engine.afterEdge, TimerEffect] using h

end AfterEdge

/-- While Unconstructed an edge changes nothing (42_edge_events.md R144). -/
theorem edgeEvent_unconstructed {c : Channel} {cur : ChanState} {now : BitVec p.tsWidth} {e : Engine p}
    (h : e.life = .unconstructed) : edgeEvent c cur now e = .ok e := by simp [edgeEvent, h]

/-- While Active an edge applies the step of the forward cycle (42_edge_events.md R140); the index fault does not arise. -/
theorem edgeEvent_active {c : Channel} {cur : ChanState} {now : BitVec p.tsWidth} {e : Engine p} (h : e.life = .active) :
    ∃ st : GrayStep, st.toInt = stepRule (e.prev.get c) cur ∧ edgeEvent c cur now e = .ok (e.afterEdge c cur now st) := by
  obtain ⟨st, hst, hi⟩ := DT_tableIndex (e.prev.get c) cur
  exact ⟨st, hi, by simp [edgeEvent, h, hst]⟩

end Sys2Proof.Machine
end

