-- ==== Sys2Proof/Laws/Exec.lean ====
section
/-! SUPPORT. Each instruction's next state in one place: `exec` always answers `bodyAfter`, and `bodyAfter`'s registers. -/

namespace Sys2Proof.Machine

variable {p : Params}

/-- The table entry for a pair of channel states. -/
def grayStep (prev cur : ChanState) : GrayStep := (DT (tableIndex prev cur)).getD .zero

@[simp] theorem grayStep_toInt (prev cur : ChanState) : (grayStep prev cur).toInt = stepRule prev cur := by
  obtain ⟨st, h, hi⟩ := DT_tableIndex prev cur
  simp [grayStep, h, hi]

/-- The registers after an edge in any state (42_edge_events.md R140, R144). -/
def Engine.edge (c : Channel) (cur : ChanState) (now : BitVec p.tsWidth) (e : Engine p) : Engine p :=
  match e.life with
  | .unconstructed => e
  | .active => e.afterEdge c cur now (grayStep (e.prev.get c) cur)

theorem edgeEvent_eq (c : Channel) (cur : ChanState) (now : BitVec p.tsWidth) (e : Engine p) :
    edgeEvent c cur now e = .ok (e.edge c cur now) := by
  obtain ⟨st, h, -⟩ := DT_tableIndex (e.prev.get c) cur
  unfold edgeEvent Engine.edge grayStep
  cases e.life <;> simp [h]

/-- The state after an instruction, from any state. -/
def bodyAfter : Instr → Body p → Body p
  | .getPosition, b => b.whenActive (fun b => b.answer 0x00 (positionData b.eng))
  | .getDirection, b => b.whenActive (fun b => b.answer 0x01 (directionData b.eng))
  | .getPeriod, b => b.whenActive (fun b => b.answer 0x02 (periodData b.eng))
  | .getDiagnostics, b => b.whenActive (fun b => b.answer 0x03 (diagnosticsData b.eng))
  | .setZero, b => b.whenActive (fun b => b.zeroPosition.respond .ok 0)
  | .construct pinA pinB, b => b.construct (pinOperand p pinA) (pinOperand p pinB)
  | .destroy, b => b.destroy
  | .edgeA la lb, b => { b with eng := b.eng.edge .A (channelState la lb) (b.inp.now p) }
  | .edgeB la lb, b => { b with eng := b.eng.edge .B (channelState la lb) (b.inp.now p) }

/-- The one equation of `exec`: callers cite it and never unfold a meaning. -/
theorem exec_eq (i : Instr) (b : Body p) : exec i ⟨p, b⟩ = .next ⟨p, bodyAfter i b⟩ := by
  cases i <;>
    simp [exec, bodyAfter, execGetPosition, execGetDirection, execGetPeriod, execGetDiagnostics, execSetZero,
      execConstruct, execDestroy, execEdgeA, execEdgeB, edgeTransaction, State.finish, edgeEvent_eq, Except.map]

/-- Reading a next state off `exec`. -/
theorem exec_next {i : Instr} {b t : Body p} (h : exec i ⟨p, b⟩ = .next ⟨p, t⟩) : t = bodyAfter i b := by
  rw [exec_eq] at h
  simpa using h.symm

/-! ### `whenActive` and `answer` -/

theorem Body.whenActive_active {f : Body p → Body p} {b : Body p} (h : b.eng.life = .active) : b.whenActive f = f b := by
  simp [Body.whenActive, h]

theorem Body.whenActive_unconstructed {f : Body p → Body p} {b : Body p} (h : b.eng.life = .unconstructed) :
    b.whenActive f = b.raise .errState := by
  simp [Body.whenActive, h]

@[simp] theorem Body.answer_eng (w : TxWord) (v : BitVec p.rdataWidth) (b : Body p) : (b.answer w v).eng = b.eng := by
  simp [Body.answer]
@[simp] theorem Body.answer_edgeSource (w : TxWord) (v : BitVec p.rdataWidth) (b : Body p) :
    (b.answer w v).edgeSource = b.edgeSource := by simp [Body.answer]
@[simp] theorem Body.answer_ports (w : TxWord) (v : BitVec p.rdataWidth) (b : Body p) :
    (b.answer w v).ports = b.ports := by simp [Body.answer]
@[simp] theorem Body.answer_cycles (w : TxWord) (v : BitVec p.rdataWidth) (b : Body p) :
    (b.answer w v).cycles = b.cycles := by simp [Body.answer]
@[simp] theorem Body.answer_inp (w : TxWord) (v : BitVec p.rdataWidth) (b : Body p) :
    (b.answer w v).inp = b.inp := by simp [Body.answer]
@[simp] theorem Body.answer_out (w : TxWord) (v : BitVec p.rdataWidth) (b : Body p) :
    (b.answer w v).out =
      { b.out with
        response := some ⟨.ok, v⟩
        emitted := b.out.emitted ++ if p.obsSink = true then [.obs w v] else [] } := by
  simp [Body.answer]

/-- A query's whole next state on an Active engine. -/
theorem Body.answer_eq (w : TxWord) (v : BitVec p.rdataWidth) (b : Body p) :
    b.answer w v =
      { b with out := { b.out with
        response := some ⟨.ok, v⟩
        emitted := b.out.emitted ++ if p.obsSink = true then [.obs w v] else [] } } := by
  unfold Body.answer Body.observe
  split <;> simp_all [Body.respond, Body.emit]

/-! ### The rdata layouts as numbers (30_encoding.md R79) -/

theorem toNat_setWidth_rdata {w : Nat} (x : BitVec w) (h : w ≤ p.rdataWidth) :
    (x.setWidth p.rdataWidth).toNat = x.toNat := by
  rw [BitVec.toNat_setWidth]
  exact Nat.mod_eq_of_lt (Nat.lt_of_lt_of_le x.isLt (Nat.pow_le_pow_right (by omega) h))

theorem mul_two_pow_or_eq_add {w a : Nat} (h : a < 2 ^ w) (b : Nat) : b * 2 ^ w ||| a = b * 2 ^ w + a := by
  rw [← Nat.shiftLeft_eq, Nat.shiftLeft_add_eq_or_of_lt h]

theorem positionData_toNat (e : Engine p) : (positionData e).toNat = e.pos.toNat :=
  toNat_setWidth_rdata e.pos (Nat.le_max_left _ _)

theorem directionData_toNat (e : Engine p) :
    (directionData e).toNat = if e.dir = .clockwise then 0 else 1 := by
  rw [directionData, toNat_setWidth_rdata]
  · cases e.dir <;> rfl
  · simp only [Params.rdataWidth]; omega

theorem periodData_toNat (e : Engine p) :
    (periodData e).toNat = (if e.periodValid = true then 2 ^ p.tsWidth else 0) + e.period.toNat := by
  rw [periodData, toNat_setWidth_rdata]
  · have h := mul_two_pow_or_eq_add e.period.isLt 1
    cases e.periodValid <;> simp_all [BitVec.toNat_append, Nat.shiftLeft_eq]
  · simp only [Params.rdataWidth]; omega

theorem diagnosticsData_toNat (e : Engine p) :
    (diagnosticsData e).toNat = e.diag.b.toNat * 2 ^ p.diagWidth + e.diag.a.toNat := by
  rw [diagnosticsData, toNat_setWidth_rdata]
  · simpa [BitVec.toNat_append, Nat.shiftLeft_eq] using mul_two_pow_or_eq_add e.diag.a.isLt e.diag.b.toNat
  · simp only [Params.rdataWidth]; omega

/-! ### What no instruction touches -/

@[simp] theorem bodyAfter_ports (i : Instr) (b : Body p) : (bodyAfter i b).ports = b.ports := by
  cases i <;> simp only [bodyAfter, Body.whenActive, Body.construct, Body.claimBoth, Body.destroy] <;>
    repeat' (first | rfl | simp | split)

@[simp] theorem bodyAfter_cycles (i : Instr) (b : Body p) : (bodyAfter i b).cycles = b.cycles := by
  cases i <;> simp only [bodyAfter, Body.whenActive, Body.construct, Body.claimBoth, Body.destroy] <;>
    repeat' (first | rfl | simp | split)

@[simp] theorem bodyAfter_inp (i : Instr) (b : Body p) : (bodyAfter i b).inp = b.inp := by
  cases i <;> simp only [bodyAfter, Body.whenActive, Body.construct, Body.claimBoth, Body.destroy] <;>
    repeat' (first | rfl | simp | split)

@[simp] theorem bodyAfter_accepted (i : Instr) (b : Body p) : (bodyAfter i b).out.accepted = b.out.accepted := by
  cases i <;> simp only [bodyAfter, Body.whenActive, Body.construct, Body.claimBoth, Body.destroy] <;>
    repeat' (first | rfl | simp | split)

/-! ### CONSTRUCT by cases (44_lifecycle.md R190 to R193) -/

/-- What a CONSTRUCT can do. -/
inductive ConstructCase (pinA pinB : BitVec p.pinIdWidth) (b : Body p) : Prop where
  | whileActive (life : b.eng.life = .active) (eq : b.construct pinA pinB = b.raise .errState)
  | equalPins (life : b.eng.life = .unconstructed) (pins : pinA = pinB)
      (eq : b.construct pinA pinB = b.raise .hwUnavailable)
  | deniedA (life : b.eng.life = .unconstructed) (pins : pinA ≠ pinB) (grantA : b.inp.grantA = false)
      (eq : b.construct pinA pinB = (b.claim pinA false).raise .hwUnavailable)
  | deniedB (life : b.eng.life = .unconstructed) (pins : pinA ≠ pinB) (grantA : b.inp.grantA = true)
      (grantB : b.inp.grantB = false)
      (eq : b.construct pinA pinB = (((b.claim pinA true).claim pinB false).release pinA).raise .hwUnavailable)
  | succeeds (life : b.eng.life = .unconstructed) (pins : pinA ≠ pinB) (grantA : b.inp.grantA = true)
      (grantB : b.inp.grantB = true)
      (eq : b.construct pinA pinB =
        { (b.claim pinA true).claim pinB true with eng := .fresh pinA pinB }.respond .ok 0)

theorem Body.construct_cases (pinA pinB : BitVec p.pinIdWidth) (b : Body p) : ConstructCase pinA pinB b := by
  cases hl : b.eng.life with
  | active => exact .whileActive hl (by simp [Body.construct, hl])
  | unconstructed =>
    by_cases hp : pinA = pinB
    · exact .equalPins hl hp (by simp [Body.construct, hl, hp])
    · cases hA : b.inp.grantA with
      | false => exact .deniedA hl hp hA (by simp [Body.construct, Body.claimBoth, hl, hp, hA])
      | true =>
        cases hB : b.inp.grantB with
        | false => exact .deniedB hl hp hA hB (by simp [Body.construct, Body.claimBoth, hl, hp, hA, hB])
        | true => exact .succeeds hl hp hA hB (by simp [Body.construct, Body.claimBoth, hl, hp, hA, hB])

theorem Body.destroy_active {b : Body p} (h : b.eng.life = .active) :
    b.destroy = ((b.release b.eng.pin.a).release b.eng.pin.b).clearRegisters.respond .ok 0 := by
  simp [Body.destroy, h]

theorem Body.destroy_unconstructed {b : Body p} (h : b.eng.life = .unconstructed) : b.destroy = b.respond .ok 0 := by
  simp [Body.destroy, h]

end Sys2Proof.Machine
end

