-- ==== Sys2Proof/Laws/PerInstr.lean ====
section
/-! SUPPORT. A fact about every instruction as syntax, one lemma per constructor: its word meets its own row of the opcode table
(30_encoding.md R80) on the row's port, and no other row. -/

namespace Sys2Proof.Laws

/-- A row of the opcode table as mask, match and port (30_encoding.md R80, spec/opcode_table.json). -/
structure MatchMask.Row where
  mask : TxWord
  bits : TxWord
  port : Port
  deriving DecidableEq, Repr

/-- A word meets a row. -/
def MatchMask.Row.meets (r : MatchMask.Row) (w : TxWord) : Bool := decide (w &&& r.mask = r.bits)

/-- The nine rows. -/
def MatchMask.rows : List MatchMask.Row :=
  [⟨0xFF, 0x00, .host⟩, ⟨0xFF, 0x01, .host⟩, ⟨0xFF, 0x02, .host⟩, ⟨0xFF, 0x03, .host⟩, ⟨0xFF, 0x40, .host⟩,
   ⟨0xFF, 0x41, .host⟩, ⟨0xFF, 0x42, .host⟩, ⟨0xFC, 0x80, .edgeA⟩, ⟨0xFC, 0x84, .edgeB⟩]

/-- The place of an instruction's row in the table. -/
def MatchMask.index : Instr → Nat
  | .getPosition => 0
  | .getDirection => 1
  | .getPeriod => 2
  | .getDiagnostics => 3
  | .setZero => 4
  | .construct _ _ => 5
  | .destroy => 6
  | .edgeA _ _ => 7
  | .edgeB _ _ => 8

/-- The instruction's word meets exactly the row at its place, and the row names the instruction's port. -/
def MatchMask.Statement (i : Instr) : Prop :=
  rows.map (fun r => r.meets (encodeWord i)) = (List.range 9).map (fun k => decide (k = index i)) ∧
  (rows[index i]?).map MatchMask.Row.port = some (portOf i)

namespace MatchMask

theorem getPosition : Statement .getPosition := by unfold Statement; decide
theorem getDirection : Statement .getDirection := by unfold Statement; decide
theorem getPeriod : Statement .getPeriod := by unfold Statement; decide
theorem getDiagnostics : Statement .getDiagnostics := by unfold Statement; decide
theorem setZero : Statement .setZero := by unfold Statement; decide
theorem construct (pinA pinB : Nat) : Statement (.construct pinA pinB) := by
  have h : Statement (.construct 0 0) := by unfold Statement; decide
  exact h
theorem destroy : Statement .destroy := by unfold Statement; decide
theorem edgeA (la lb : Bool) : Statement (.edgeA la lb) := by unfold Statement; cases la <;> cases lb <;> decide
theorem edgeB (la lb : Bool) : Statement (.edgeB la lb) := by unfold Statement; cases la <;> cases lb <;> decide

end MatchMask

end Sys2Proof.Laws
end

