-- ==== Sys2Proof/Laws/Step.lean ====
section
/-! SUPPORT. What a cycle brings, and the one equation of `step`. -/

namespace Sys2Proof.Machine

variable {p : Params}

/-- A level filling in is the word's six high bits and the two levels (30_encoding.md R76). -/
theorem fillLevels_eq (la lb : Bool) (w : TxWord) :
    fillLevels la lb w = w.extractLsb' 2 6 ++ BitVec.ofBool la ++ BitVec.ofBool lb := by
  revert w
  cases la <;> cases lb <;> decide

/-- Filling in the levels a word carries leaves it as it is. -/
theorem fillLevels_self (w : TxWord) : fillLevels (laField w) (lbField w) w = w := by
  revert w; decide

/-! ### The accepted word -/

/-- What `take` answers for a port, in terms of the port's list alone. -/
theorem Ports.take_isSome (port : Port) (inp : Inputs) (b : Body p) :
    (b.ports.take port inp).isSome = b.valid port := by
  cases port <;> simp only [Ports.take, Body.valid, Ports.hostPresents] <;> split <;> simp_all

/-- Taking a word removes the oldest word of that port and no other. -/
theorem Ports.take_some {port : Port} {inp : Inputs} {q q' : Ports p} {w : TxWord} {d : BitVec p.wdataWidth}
    (h : q.take port inp = some (w, d, q')) :
    q'.edgeA = (if port = .edgeA then q.edgeA.tail else q.edgeA) ∧
    q'.edgeB = (if port = .edgeB then q.edgeB.tail else q.edgeB) ∧
    q'.host = (if port = .host then q.host.tail else q.host) := by
  cases port <;> simp only [Ports.take] at h <;> split at h <;> simp_all <;>
    obtain ⟨-, -, rfl⟩ := h <;> simp_all

/-! ### The three things a cycle can bring -/

/-- What `fetch` says of the state it hands on. -/
inductive FetchCase (b : Body p) : Prop where
  | noCycle (cycles : b.cycles = []) (eq : fetch b = .idle { b with out := .silent p })
  | reset (c : Cycle) (rest : List Cycle) (cycles : b.cycles = c :: rest) (rst : c.rst = true)
      (eq : fetch b =
        .reset (({ b with cycles := rest, inp := c.inputs b.inp.tick, out := .silent p } : Body p).powerOnReset
          c.edgeSourceRst))
  | nothing (c : Cycle) (rest : List Cycle) (cycles : b.cycles = c :: rest) (rst : c.rst = false)
      (none : c.accept = none ∨ ∃ port, c.accept = some port ∧ b.valid port = false)
      (eq : fetch b = .idle { b with cycles := rest, inp := c.inputs b.inp.tick, out := .silent p })
  | transaction (c : Cycle) (rest : List Cycle) (cycles : b.cycles = c :: rest) (rst : c.rst = false)
      (port : Port) (accept : c.accept = some port) (w : TxWord) (d : BitVec p.wdataWidth) (left : Ports p)
      (taken : b.ports.take port (c.inputs b.inp.tick) = some (w, d, left))
      (eq : fetch b = .transaction port w d
        { b with cycles := rest, inp := c.inputs b.inp.tick, ports := left, out := ⟨some port, .none, []⟩ })

theorem fetch_cases (b : Body p) : FetchCase b := by
  cases hc : b.cycles with
  | nil => exact .noCycle hc (by simp [fetch, hc])
  | cons c rest =>
    cases hr : c.rst with
    | true => exact .reset c rest hc hr (by simp [fetch, hc, hr])
    | false =>
      cases ha : c.accept with
      | none => exact .nothing c rest hc hr (.inl ha) (by simp [fetch, hc, hr, ha])
      | some port =>
        have hv := Ports.take_isSome port (c.inputs b.inp.tick) b
        cases ht : b.ports.take port (c.inputs b.inp.tick) with
        | none =>
          exact .nothing c rest hc hr (.inr ⟨port, ha, by simpa [ht] using hv.symm⟩) (by simp [fetch, hc, hr, ha, ht])
        | some x =>
          obtain ⟨w, d, left⟩ := x
          exact .transaction c rest hc hr port ha w d left ht
            (by simp [fetch, hc, hr, ha, ht, Outputs.silent])

/-! ### One step -/

/-- The state after a step, from any state. -/
def stepBody (b : Body p) : Body p :=
  match fetch b with
  | .reset b' => b'
  | .idle b' => b'
  | .transaction port w d b' =>
    match decode p port w d with
    | .ok i => bodyAfter i b'
    | .error _ => b'.illegalWord port

/-- The one equation of `step`: callers cite it and never unfold `step`. -/
theorem step_eq (b : Body p) : step ⟨p, b⟩ = .next ⟨p, stepBody b⟩ := by
  unfold step stepBody
  cases fetch b with
  | reset b' => rfl
  | idle b' => rfl
  | transaction port w d b' =>
    simp only
    cases decode p port w d with
    | ok i => exact exec_eq i b'
    | error e => rfl

/-- Reading a next state off `step`. -/
theorem step_next {b t : Body p} (h : step ⟨p, b⟩ = .next ⟨p, t⟩) : t = stepBody b := by
  rw [step_eq] at h
  simpa using h.symm

/-- A run is a step and then the rest of the run. -/
theorem runs_succ {n : Nat} {b : Body p} {t : State} : Runs (n + 1) ⟨p, b⟩ t ↔ Runs n ⟨p, stepBody b⟩ t := by
  have h : Sys2Proof.core.step ⟨p, b⟩ = .next ⟨p, stepBody b⟩ := step_eq b
  simp only [Runs, Host.Core.run]
  rw [h]

theorem runs_zero {s t : State} : Runs 0 s t ↔ t = s := by
  constructor
  · intro h
    exact (Host.Outcome.next.inj h).symm
  · rintro rfl
    rfl

/-- The trace of a run is the first step's instruction and then the rest of the trace. -/
theorem trace_succ (n : Nat) (b : Body p) :
    trace (n + 1) ⟨p, b⟩ = (nextInstr ⟨p, b⟩).toList ++ trace n ⟨p, stepBody b⟩ := by
  simp [trace, step_eq]

end Sys2Proof.Machine
end

