-- ==== Sys2Proof/Tests/Slice0.lean ====
section
/-! SUPPORT. Tests whose expected values are the spec's worked examples and vectors (95_test_vectors.md, named by their ids), the
checks of well-formedness, and for every statement with hypotheses a concrete state and operands that meet them together. -/

namespace Sys2Proof.Tests

open Sys2Proof.Machine

/-! ### Small states (95_test_vectors.md, section 0) -/

/-- P0, the power-on engine. -/
def P0 (p : Params) : Engine p :=
  ⟨.unconstructed, ⟨0, 0⟩, ⟨0b00, 0b00⟩, 0, .clockwise, false, 0, 0, false, ⟨0, 0⟩⟩

/-- F, the fresh engine bound to pins 17 and 18. -/
def F (p : Params) : Engine p :=
  ⟨.active, ⟨17, 18⟩, ⟨0b00, 0b00⟩, 0, .clockwise, false, 0, 0, false, ⟨0, 0⟩⟩

/-- F under the default parameters. -/
abbrev F0 : Engine .default := F .default

/-- A cycle that accepts a port. -/
def accepting (port : Port) (la lb : Bool) (elapsed : Nat) (gA gB : Bool) : Cycle :=
  ⟨false, false, some port, elapsed, la, lb, gA, gB⟩

/-- The default parameters with OBS_SINK true. -/
def observed : Params := { obsSink := true }

/-- Nothing presented, nothing scheduled, tick count 0. -/
def still {p : Params} (e : Engine p) : Body p :=
  ⟨e, ⟨match e.life with | .unconstructed => [] | .active => [e.pin.b, e.pin.a]⟩, ⟨[], [], []⟩, [],
    ⟨0, false, false, false, false⟩, ⟨none, none, []⟩⟩

/-- One host word presented and accepted next, with the two claim answers. -/
def host {p : Params} (e : Engine p) (w : TxWord) (wdata : BitVec p.wdataWidth := 0) (gA : Bool := true) (gB : Bool := true) :
    Body p :=
  { still e with ports := ⟨[], [], [⟨w, wdata⟩]⟩, cycles := [accepting .host false false 0 gA gB] }

/-- One word presented at edge port A, accepted at tick `t`. -/
def edgeA {p : Params} (e : Engine p) (w : TxWord) (t : Nat) : Body p :=
  { still e with ports := ⟨[w], [], []⟩, cycles := [accepting .edgeA (w.getLsbD 1) (w.getLsbD 0) t false false] }

/-- One word presented at edge port B, accepted at tick `t`. -/
def edgeB {p : Params} (e : Engine p) (w : TxWord) (t : Nat) : Body p :=
  { still e with ports := ⟨[], [w], []⟩, cycles := [accepting .edgeB (w.getLsbD 1) (w.getLsbD 0) t false false] }

/-- The step answers a next state that passes the check. -/
def leads {p : Params} (b : Body p) (check : State → Bool) : Bool :=
  match step ⟨p, b⟩ with
  | .next t => check t
  | .fault _ => false
  | .refused _ => false

/-- The response of a state: status code and rdata. -/
def answered (t : State) : Option (Nat × Nat) := t.body.out.response.map (fun r => (r.status.code.toNat, r.rdata.toNat))

/-! ### Well-formedness: each check refuses its ill-formed term -/

theorem test_wellFormed_refuses_pinA : (Instr.construct 256 18).wellFormed .default = false := by decide
theorem test_wellFormed_refuses_pinB : (Instr.construct 17 256).wellFormed .default = false := by decide
theorem test_wellFormed_takes_largest_pins : (Instr.construct 255 255).wellFormed .default = true := by decide

/-! ### Decoding: words written out bit by bit (30_encoding.md R80) -/

theorem test_decode_query : decode .default .host 0b00000010 0 = .ok .getPeriod := by rfl
theorem test_decode_query_all :
    [0b00000000, 0b00000001, 0b00000010, 0b00000011].map (decodeTableWord 8) =
      [some .getPosition, some .getDirection, some .getPeriod, some .getDiagnostics] := by decide
theorem test_decode_control_all :
    [0b01000000, 0b01000001, 0b01000010].map (decodeTableWord 8) =
      [some .setZero, some (.construct 0 0), some .destroy] := by decide
theorem test_decode_construct_wdata : decode .default .host 0b01000001 0x1211 = .ok (.construct 17 18) := by rfl
theorem test_decode_table_construct_wdata : decodeTableWord 24 0x121141 = some (.construct 17 18) := by decide
theorem test_decode_edgeA_all :
    [0b10000000, 0b10000001, 0b10000010, 0b10000011].map (decodeTableWord 8) =
      [some (.edgeA false false), some (.edgeA false true), some (.edgeA true false), some (.edgeA true true)] := by decide
theorem test_decode_edgeB_all :
    [0b10000100, 0b10000101, 0b10000110, 0b10000111].map (decodeTableWord 8) =
      [some (.edgeB false false), some (.edgeB false true), some (.edgeB true false), some (.edgeB true true)] := by decide
/-- R82 at its boundaries. -/
theorem test_decode_illegal_tableWords :
    [0x04, 0x3F, 0x43, 0x7F, 0x88, 0xBF, 0xC0, 0xFF].map (decodeTableWord 8) = List.replicate 8 none := by decide
/-- R85: CONSTRUCT 17, 18 is 0x41 with wdata 0x1211. -/
theorem test_encode_construct : encode .default (.construct 17 18) = ⟨.host, 0x41, 0x1211⟩ := by decide
/-- R85: EDGE_A 1, 1 is 0x83 and EDGE_B 0, 1 is 0x85. -/
theorem test_encode_edges : (encodeWord (.edgeA true true), encodeWord (.edgeB false true)) = (0x83, 0x85) := by decide
theorem test_assemblyLine_edge : assemblyLine (.edgeA true true) = "EDGE_A 1, 1" := by decide
theorem test_assemblyLine_construct : assemblyLine (.construct 17 18) = "CONSTRUCT 17, 18" := by decide

/-- R85's listing example, `EDGE_A 0, 1 @100`, with a comment: word 0x81 at NOW = 100. -/
theorem test_assemble_edge_with_time :
    assemble "EDGE_A 0, 1 @100 ; first step" = some (.edgeA false true, some 100) ∧
    encodeWord (.edgeA false true) = 0x81 := by decide
/-- R85 and V-L11: CONSTRUCT with decimal and with hexadecimal pins. -/
theorem test_assemble_construct :
    (assemble "CONSTRUCT 17, 18", assemble "CONSTRUCT 0xAB, 0xCD") =
      (some (.construct 17 18, none), some (.construct 0xAB 0xCD, none)) := by decide
/-- R85: no pseudo-instruction, no third level, no `@t` but on an edge. -/
theorem test_assemble_refuses :
    ["NOP", "EDGE_A 2, 0", "EDGE_A 1", "SET_ZERO @5", ""].map assemble = List.replicate 5 none := by decide

/-! ### One step of each instruction -/

/-- V-Q5: POS = -3 is returned zero-filled. -/
theorem test_getPosition_negative :
    leads (host { F0 with pos := -3 } 0x00) (fun t => answered t = some (0, 0x0FFFFFFFD)) = true := by decide
/-- V-Q14: the observability record. -/
theorem test_getPosition_observed :
    leads (host { F observed with pos := 7 } 0x00)
      (fun t => answered t = some (0, 7) ∧ t.body.out.emitted = [.obs 0x00 7]) = true := by decide
/-- V-Q8. -/
theorem test_getDirection :
    leads (host { F0 with dir := .counterClockwise } 0x01) (fun t => answered t = some (0, 1)) = true := by decide
/-- V-Q1 to V-Q4, for GET_DIRECTION. -/
theorem test_getDirection_unconstructed :
    leads (host (P0 .default) 0x01) (fun t => answered t = some (2, 0)) = true := by decide
/-- V-Q10. -/
theorem test_getPeriod_valid :
    leads (host { F0 with period := 250, periodValid := true } 0x02)
      (fun t => answered t = some (0, 0x100000000000000FA)) = true := by decide
/-- V-Q9. -/
theorem test_getPeriod_unknown : leads (host F0 0x02) (fun t => answered t = some (0, 0)) = true := by decide
/-- V-Q12. -/
theorem test_getDiagnostics :
    leads (host { F0 with diag := ⟨3, 5⟩ } 0x03) (fun t => answered t = some (0, 0x500000003)) = true := by decide
/-- V-Z1. -/
theorem test_setZero :
    leads (host { F0 with pos := 17, dir := .counterClockwise, diag := ⟨4, 2⟩, period := 9, periodValid := true } 0x40)
      (fun t => answered t = some (0, 0) ∧ t.body.eng.pos.toNat = 0 ∧ t.body.eng.dir = .counterClockwise ∧
        t.body.eng.diag.b.toNat = 2 ∧ t.body.eng.period.toNat = 9) = true := by decide
/-- V-L1. -/
theorem test_construct_succeeds :
    leads (host (P0 .default) 0x41 0x1211)
      (fun t => answered t = some (0, 0) ∧ t.body.eng.life = .active ∧ t.body.eng.pin.a.toNat = 17 ∧
        t.body.eng.pin.b.toNat = 18 ∧ t.body.out.emitted = [.claim 17 .both, .claim 18 .both]) = true := by decide
/-- V-L3. -/
theorem test_construct_rolls_back :
    leads (host (P0 .default) 0x41 0x1211 true false)
      (fun t => answered t = some (1, 0) ∧ t.body.eng.life = .unconstructed ∧ t.body.edgeSource.registered.length = 0 ∧
        t.body.out.emitted = [.claim 17 .both, .claim 18 .both, .release 17]) = true := by decide
/-- V-L7. -/
theorem test_destroy :
    leads (host { F0 with pos := 9, diag := ⟨4, 4⟩, periodValid := true } 0x42)
      (fun t => answered t = some (0, 0) ∧ t.body.eng = Engine.powerOn t.params ∧
        t.body.out.emitted = [.release 17, .release 18]) = true := by decide
/-- V-L8. -/
theorem test_destroy_unconstructed :
    leads (host (P0 .default) 0x42) (fun t => answered t = some (0, 0) ∧ t.body.out.emitted = []) = true := by decide
/-- V-E6: the position wrap, on a forward step of channel A. -/
theorem test_edgeA_wraps :
    leads (edgeA { F0 with prev := ⟨0b01, 0b00⟩, pos := 0x7FFFFFFF } 0x83 10)
      (fun t => t.body.eng.pos.toInt = -2147483648 ∧ t.body.eng.dir = .clockwise ∧ t.body.eng.prev.a = 0b11 ∧
        t.body.eng.diag.a.toNat = 1 ∧ t.body.eng.ptStamp.toNat = 10 ∧ answered t = none) = true := by decide
/-- V-P6, its second edge: the time input has wrapped between the two calls. -/
theorem test_edgeA_period_wraps :
    leads (edgeA { F0 with prev := ⟨0b01, 0b00⟩, ptPhase := true, ptStamp := 0xFFFFFFFFFFFFFFF6 } 0x83 (2 ^ 64 + 5))
      (fun t => t.body.eng.period.toNat = 15 ∧ t.body.eng.periodValid = true ∧ t.body.eng.ptPhase = false ∧
        t.body.eng.ptStamp.toNat = 0xFFFFFFFFFFFFFFF6) = true := by decide
/-- V-E5. -/
theorem test_edgeB_period :
    leads (edgeB { F0 with pos := 5, diag := ⟨0, 7⟩, ptPhase := true, ptStamp := 40 } 0x86 90)
      (fun t => t.body.eng.prev.b = 0b10 ∧ t.body.eng.pos.toNat = 4 ∧ t.body.eng.dir = .counterClockwise ∧
        t.body.eng.period.toNat = 50 ∧ t.body.eng.diag.b.toNat = 8) = true := by decide
/-- V-E12. -/
theorem test_edgeB_dropped :
    leads (edgeB (P0 .default) 0x87 7) (fun t => t.body.eng = Engine.powerOn t.params ∧ t.body.out.emitted = []) = true := by
  decide

/-! ### Illegal words, priorities, reset, the host's interface -/

/-- V-X3: an edge word on the host port. -/
theorem test_host_cannot_inject_an_edge :
    leads (host F0 0x81) (fun t => answered t = some (3, 0) ∧ t.body.eng.diag.a.toNat = 0) = true := by decide
/-- V-X5: decode is checked before the lifecycle. -/
theorem test_illegal_before_lifecycle : leads (host (P0 .default) 0x04) (fun t => answered t = some (3, 0)) = true := by decide
/-- V-L6: the lifecycle is checked before equal pins. -/
theorem test_lifecycle_before_pins : leads (host F0 0x41 0x0505) (fun t => answered t = some (2, 0)) = true := by decide
/-- V-X6. -/
theorem test_foreign_edge_word_is_dropped :
    leads (edgeA F0 0x84 10) (fun t => t.body.eng.diag.a.toNat = 0 ∧ t.body.eng.diag.b.toNat = 0 ∧ answered t = none) = true := by
  decide
/-- From reset, a table word placed for the next step runs in it: CONSTRUCT 17, 18 meets denied claims. -/
theorem test_withFetchWord_construct :
    leads (State.reset.withFetchWord 24 0x121141).body (fun t => answered t = some (1, 0)) = true := by decide
/-- The levels of a placed edge word are the word's own. -/
theorem test_withFetchWord_edge :
    nextInstr (State.reset.withFetchWord 8 0b10000110) = some (.edgeB true false) := by decide
/-- V-T18: the table has no value at index 16. -/
theorem test_decodeTable_index_16 : DT 16 = none := by decide

/-! ### Witnesses: encoding -/

theorem witness_DecodeEncodeRoundTrip :
    (Instr.construct 255 0).wellFormed .default = true ∧ (Instr.edgeB true false).wellFormed .default = true := by decide
theorem witness_DecodedWordIsItsEncoding :
    decode .default .host 0x41 0xFF00 = .ok (.construct 0 255) ∧ decode .default .edgeB 0x87 0 = .ok (.edgeB true true) :=
  ⟨rfl, rfl⟩
theorem witness_ReservedClassIsIllegal :
    (0xC0 : TxWord).extractLsb' 6 2 = 0b11 ∧ (0xFF : TxWord).extractLsb' 6 2 = 0b11 := by decide
theorem witness_WriteDataIsReadByConstructOnly : (0x40 : TxWord) ≠ 0x41 ∧ (0x42 : TxWord) ≠ 0x41 := by decide

/-! ### Witnesses: the step -/

theorem witness_StepRuns_host :
    (host F0 0x41 0x1211).cycles = [accepting .host false false 0 true true] ∧
    (accepting .host false false 0 true true).rst = false ∧
    (accepting .host false false 0 true true).accept = some .host ∧
    (host F0 0x41 0x1211).ports.host = [⟨0x41, 0x1211⟩] ∧
    decode .default .host 0x41 0x1211 = .ok (.construct 17 18) := ⟨rfl, rfl, rfl, rfl, rfl⟩
theorem witness_StepRuns_edgeA :
    (edgeA F0 0x82 5).cycles = [accepting .edgeA true false 5 false false] ∧
    (accepting .edgeA true false 5 false false).rst = false ∧
    (accepting .edgeA true false 5 false false).accept = some .edgeA ∧
    (edgeA F0 0x82 5).ports.edgeA = [0x82] ∧
    decode .default .edgeA ((0x82 : TxWord).extractLsb' 2 6 ++ BitVec.ofBool true ++ BitVec.ofBool false) 0 =
      .ok (.edgeA true false) := ⟨rfl, rfl, rfl, rfl, rfl⟩
theorem witness_StepRuns_edgeB :
    (edgeB F0 0x85 5).cycles = [accepting .edgeB false true 5 false false] ∧
    (accepting .edgeB false true 5 false false).rst = false ∧
    (accepting .edgeB false true 5 false false).accept = some .edgeB ∧
    (edgeB F0 0x85 5).ports.edgeB = [0x85] ∧
    decode .default .edgeB ((0x85 : TxWord).extractLsb' 2 6 ++ BitVec.ofBool false ++ BitVec.ofBool true) 0 =
      .ok (.edgeB false true) := ⟨rfl, rfl, rfl, rfl, rfl⟩

/-- The words at the ends of R82's ranges on the host port. -/
theorem witness_IllegalWords_host :
    (∃ b', fetch (host F0 0x04) = .transaction .host 0x04 0 b') ∧
    ¬ HostWord 0x04 ∧ ¬ HostWord 0x3F ∧ ¬ HostWord 0x43 ∧ ¬ HostWord 0x7F ∧ ¬ HostWord 0x80 ∧ ¬ HostWord 0xFF :=
  ⟨⟨_, rfl⟩, by decide, by decide, by decide, by decide, by decide, by decide⟩
theorem witness_IllegalWords_edgeA :
    (∃ b', fetch (edgeA F0 0x84 1) = .transaction .edgeA 0x84 0 b') ∧ ¬ EdgeWordOf .A 0x84 ∧ ¬ EdgeWordOf .A 0x7F :=
  ⟨⟨_, rfl⟩, by decide, by decide⟩
theorem witness_IllegalWords_edgeB :
    (∃ b', fetch (edgeB F0 0x88 1) = .transaction .edgeB 0x88 0 b') ∧ ¬ EdgeWordOf .B 0x88 ∧ ¬ EdgeWordOf .B 0x83 :=
  ⟨⟨_, rfl⟩, by decide, by decide⟩

/-- A cycle with reset asserted. -/
def resetCycle (edgeSourceToo : Bool) : Cycle := ⟨true, edgeSourceToo, some .host, 3, false, false, true, true⟩

theorem witness_PowerOnReset :
    ({ host F0 0x00 with cycles := [resetCycle true] } : Body _).cycles = [resetCycle true] ∧
    (resetCycle true).rst = true ∧ (resetCycle true).edgeSourceRst = true ∧
    (resetCycle false).rst = true ∧ (resetCycle false).edgeSourceRst = false := ⟨rfl, rfl, rfl, rfl, rfl⟩

/-- No cycle; a cycle with no choice; a cycle that chooses a port with nothing to present. -/
theorem witness_IdleKeepsAllState :
    (still F0).cycles = [] ∧
    (⟨false, false, none, 4, true, true, true, true⟩ : Cycle).accept = none ∧
    (accepting .edgeA true true 4 true true).rst = false ∧
    (accepting .edgeA true true 4 true true).accept = some .edgeA ∧
    ({ still F0 with cycles := [accepting .edgeA true true 4 true true] } : Body _).valid .edgeA = false := by decide

/-- EachPortKeepsItsOrder, ExactlyHostTransactionsRespond, ObservabilityRecords, LifeChangesOnlyByLifecycle: a step that accepts
a host word and one that accepts an edge word. -/
theorem witness_step_accepts :
    (∃ t : Body observed, step ⟨observed, host (F observed) 0x03⟩ = .next ⟨observed, t⟩ ∧
      t.out.accepted = some .host ∧ t.out.response = some ⟨.ok, 0⟩) ∧
    (∃ t : Body .default, step ⟨.default, edgeB F0 0x85 1⟩ = .next ⟨.default, t⟩ ∧ t.out.accepted = some .edgeB) :=
  ⟨⟨_, rfl, rfl, rfl⟩, ⟨_, rfl, rfl⟩⟩

/-- A response that is not OK. -/
theorem witness_ExactlyHostTransactionsRespond :
    ∃ t : Body .default, step ⟨.default, host (P0 .default) 0x40⟩ = .next ⟨.default, t⟩ ∧
      t.out.response = some ⟨.errState, 0⟩ ∧ Status.errState ≠ .ok := ⟨_, rfl, rfl, by decide⟩

theorem witness_TimeNeverDecreases :
    ∃ t : Body .default, Runs 2 ⟨.default, edgeA F0 0x81 100⟩ ⟨.default, t⟩ ∧ t.inp.tick = 100 := ⟨_, rfl, rfl⟩

/-- Every status of `statusOf` is met by some state and word, the claims' two denials included. -/
theorem witness_HostChecksRunInOrder :
    (∃ b', fetch (host F0 0x41 0x0505) = .transaction .host 0x41 0x0505 b') ∧
    statusOf (host F0 0x43) 0x43 0 = .illegal ∧
    statusOf (host (P0 .default) 0x42) 0x42 0 = .ok ∧
    statusOf (host F0 0x41 0x0505) 0x41 0x0505 = .errState ∧
    statusOf (host (P0 .default) 0x41 0x0505) 0x41 0x0505 = .hwUnavailable ∧
    statusOf { still (P0 .default) with inp := ⟨0, false, false, false, true⟩ } 0x41 0x1211 = .hwUnavailable ∧
    statusOf { still (P0 .default) with inp := ⟨0, false, false, true, false⟩ } 0x41 0x1211 = .hwUnavailable ∧
    statusOf { still (P0 .default) with inp := ⟨0, false, false, true, true⟩ } 0x41 0x1211 = .ok ∧
    statusOf (host (P0 .default) 0x40) 0x40 0 = .errState ∧
    statusOf (host F0 0x03) 0x03 0 = .ok :=
  ⟨⟨_, rfl⟩, by decide, by decide, by decide, by decide, by decide, by decide, by decide, by decide, by decide⟩

theorem witness_PlacedWordRunsNext :
    decode State.reset.params (portOfWord 0x86) 0x86 0 = .ok (.edgeB true false) ∧
    decode State.reset.params (portOfWord 0x42) 0x42 0 = .ok .destroy := ⟨rfl, rfl⟩

/-- The first and the last index without a value tested. -/
theorem witness_DecodeTableFollowsTheCycle : (16 : Nat) ≤ 16 ∧ 16 ≤ 255 := by decide

/-! ### Witnesses: edges -/

theorem witness_active : (still F0).eng.life = .active := rfl
theorem witness_unconstructed : (still (P0 .default)).eng.life = .unconstructed := rfl

/-- A diagonal and a repeated sample of either channel. -/
theorem witness_DiagonalAndRepeatedEdgesStepNothing :
    (still F0).eng.life = .active ∧
    (still F0).eng.prev.get .A ^^^ channelState true true = 0b11 ∧
    (still F0).eng.prev.get .B = channelState false false := by decide

/-- POS at both ends, with the steps that wrap, and at an end with a step that does not. -/
theorem witness_PositionWraps :
    Params.default.Legal ∧
    stepRule 0b00 (channelState false true) = 1 ∧ (0x7FFFFFFF : BitVec 32).toInt = 2 ^ (32 - 1) - 1 ∧
    stepRule 0b00 (channelState true false) = -1 ∧ (0x80000000 : BitVec 32).toInt = - 2 ^ (32 - 1) ∧
    (still { F0 with pos := 0x80000000 }).eng.life = .active := by decide

theorem witness_DiagnosticCounterWraps :
    (still { F0 with diag := ⟨0xFFFFFFFF, 0⟩ }).eng.life = .active ∧
    ((still { F0 with diag := ⟨0xFFFFFFFF, 0⟩ }).eng.diag.get .A).toNat = 2 ^ Params.default.diagWidth - 1 := by decide

theorem witness_ChannelsAreIsolated :
    (∃ t : Body .default, exec (.edgeA true false) ⟨.default, still F0⟩ = .next ⟨.default, t⟩) ∧
    (∃ t : Body .default, exec (.edgeB true false) ⟨.default, still F0⟩ = .next ⟨.default, t⟩) := ⟨⟨_, rfl⟩, ⟨_, rfl⟩⟩

theorem witness_PeriodIsTheElapsedTicks :
    (still F0).eng.life = .active ∧ (still F0).eng.ptPhase = false ∧ (still F0).inp.tick ≤ 250 := by decide

/-- P4 of 95_test_vectors.md: each edge port presents two words; the schedule is given. -/
def p4 (cycles : List Cycle) : Body .default := { still F0 with ports := ⟨[0x81, 0x83], [0x86, 0x87], []⟩, cycles := cycles }

/-- A1, A2, B1 and B2 of P4, each ten ticks after the last. -/
def a1 : Cycle := accepting .edgeA false true 10 false false
def a2 : Cycle := accepting .edgeA true true 10 false false
def b1 : Cycle := accepting .edgeB true false 10 false false
def b2 : Cycle := accepting .edgeB true true 10 false false

/-- Interleaving I1 with a query before the last edge. -/
def p4Query : Body .default :=
  { p4 [a1, a2, b1, accepting .host false false 1 false false, b2] with ports := ⟨[0x81, 0x83], [0x86, 0x87], [⟨0x00, 0⟩]⟩ }

theorem witness_NoStepIsLost :
    p4Query.eng.life = .active ∧ NoReset 5 p4Query ∧ (∀ i ∈ trace 5 ⟨_, p4Query⟩, setsOrigin i = false) ∧
    trace 5 ⟨_, p4Query⟩ =
      [.edgeA false true, .edgeA true true, .edgeB true false, .getPosition, .edgeB true true] := by decide

/-- P4's interleavings I1 and I2. -/
theorem witness_InterleavingDoesNotMatter :
    (p4 [a1, a2, b1, b2]).eng = (p4 [b1, a1, b2, a2]).eng ∧ (p4 [a1, a2, b1, b2]).eng.life = .active ∧
    NoReset 4 (p4 [a1, a2, b1, b2]) ∧ NoReset 4 (p4 [b1, a1, b2, a2]) ∧
    (∀ i ∈ trace 4 ⟨_, p4 [a1, a2, b1, b2]⟩, setsOrigin i = false) ∧
    (∀ i ∈ trace 4 ⟨_, p4 [b1, a1, b2, a2]⟩, setsOrigin i = false) ∧
    samples .A (trace 4 ⟨_, p4 [a1, a2, b1, b2]⟩) = samples .A (trace 4 ⟨_, p4 [b1, a1, b2, a2]⟩) ∧
    samples .B (trace 4 ⟨_, p4 [a1, a2, b1, b2]⟩) = samples .B (trace 4 ⟨_, p4 [b1, a1, b2, a2]⟩) ∧
    samples .A (trace 4 ⟨_, p4 [a1, a2, b1, b2]⟩) = [0b01, 0b11] := by decide
theorem witness_InterleavingDoesNotMatter_runs :
    (∃ t : Body .default, Runs 4 ⟨_, p4 [a1, a2, b1, b2]⟩ ⟨_, t⟩) ∧
    (∃ t : Body .default, Runs 4 ⟨_, p4 [b1, a1, b2, a2]⟩ ⟨_, t⟩) := ⟨⟨_, rfl⟩, ⟨_, rfl⟩⟩

/-- V-E9, the first Gray cycle. -/
def rotating : Body .default :=
  { still F0 with
    ports := ⟨[0x80, 0x80], [0x84, 0x84], []⟩
    cycles := [accepting .edgeB false true 100 false false, accepting .edgeA true true 100 false false,
      accepting .edgeB true false 100 false false, accepting .edgeA false false 100 false false] }

/-- One edge and four edges. -/
theorem witness_SteadyRotationCountsOnce :
    rotating.eng.life = .active ∧ rotating.eng.prev = ⟨0b00, 0b00⟩ ∧ NoReset 4 rotating ∧
    trace 1 ⟨_, rotating⟩ = forwardRotation 1 ∧ trace 4 ⟨_, rotating⟩ = forwardRotation 4 := by decide

/-- V-W2 and V-W3 with N = 1. -/
def walking (s1 s2 s3 s4 : ChanState) : Body .default :=
  { still F0 with
    ports := ⟨[0x80, 0x80, 0x80, 0x80], [], []⟩
    cycles := [s1, s2, s3, s4].map (fun s => accepting .edgeA (s.getLsbD 1) (s.getLsbD 0) 10 false false) }

theorem witness_SingleChannelCyclesCountFourEach :
    (walking 0b01 0b11 0b10 0b00).eng.life = .active ∧ (walking 0b01 0b11 0b10 0b00).eng.prev.a = 0b00 ∧
    NoReset 4 (walking 0b01 0b11 0b10 0b00) ∧ NoReset 4 (walking 0b10 0b11 0b01 0b00) ∧
    trace 4 ⟨_, walking 0b01 0b11 0b10 0b00⟩ = forwardCyclesA 1 ∧
    trace 4 ⟨_, walking 0b10 0b11 0b01 0b00⟩ = reverseCyclesA 1 := by decide

/-! ### Witnesses: host operations and the lifecycle -/

/-- The state after SET_ZERO keeps the two edges presented (V-Z2). -/
theorem witness_StepsAfterSetZeroCountFromZero :
    ∃ m : Body .default, exec .setZero ⟨_, p4 [a1, b1]⟩ = .next ⟨_, m⟩ ∧ (p4 [a1, b1]).eng.life = .active ∧
      NoReset 2 m ∧ ∀ i ∈ trace 2 ⟨_, m⟩, setsOrigin i = false :=
  ⟨{ p4 [a1, b1] with out := ⟨none, some ⟨.ok, 0⟩, []⟩ }, rfl, rfl, by decide, by decide⟩

theorem witness_QueriesWriteNoRegister : isQuery .getPeriod = true := rfl

/-- A query that emits; one that does not for want of a sink; a host operation that is none; a query that responds an error. -/
theorem witness_ObservabilityRecords :
    observed.obsSink = true ∧ nextInstr ⟨_, host (F observed) 0x03⟩ = some .getDiagnostics ∧
    isQuery .getDiagnostics = true ∧ Params.default.obsSink = false ∧
    nextInstr ⟨_, host (F observed) 0x04⟩ = none ∧
    nextInstr ⟨_, host (F observed) 0x40⟩ = some .setZero ∧ isQuery .setZero = false := by decide

theorem witness_RepetitionOfHostOperations :
    (∃ t : Body .default, exec .getPosition ⟨_, still F0⟩ = .next ⟨_, t⟩) ∧
    (∃ t : Body .default, exec (.construct 17 18) ⟨_, { still (P0 .default) with inp := ⟨0, false, false, true, true⟩ }⟩ =
      .next ⟨_, t⟩ ∧ t.out.response = some ⟨.ok, 0⟩) := ⟨⟨_, rfl⟩, ⟨_, rfl, rfl⟩⟩

/-- An Unconstructed engine with given claim answers. -/
def claiming (gA gB : Bool) : Body .default := { still (P0 .default) with inp := ⟨0, false, false, gA, gB⟩ }

theorem witness_ConstructSucceeds :
    (claiming true true).eng.life = .unconstructed ∧ BitVec.ofNat Params.default.pinIdWidth 0 ≠ BitVec.ofNat _ 255 ∧
    (claiming true true).inp.grantA = true ∧ (claiming true true).inp.grantB = true := by decide

theorem witness_DeniedConstructRollsBack :
    (claiming false true).eng.life = .unconstructed ∧ BitVec.ofNat Params.default.pinIdWidth 17 ≠ BitVec.ofNat _ 18 ∧
    (claiming false true).inp.grantA = false ∧
    (claiming true false).inp.grantA = true ∧ (claiming true false).inp.grantB = false := by decide

/-- ReconstructionStartsAfresh: an Active engine whose claims will be granted. -/
theorem witness_ReconstructionStartsAfresh :
    ({ still F0 with inp := ⟨0, false, false, true, true⟩ } : Body _).inp.grantA = true ∧
    ({ still F0 with inp := ⟨0, false, false, true, true⟩ } : Body _).inp.grantB = true ∧
    BitVec.ofNat Params.default.pinIdWidth 17 ≠ BitVec.ofNat _ 18 := by decide

/-! ### Witnesses: rules about the whole machine and invariants -/

/-- An instruction that writes every register. -/
theorem witness_RegisterWriteMatrix :
    ∃ t : Body .default, exec .destroy ⟨_, still { F0 with pos := 4 }⟩ = .next ⟨_, t⟩ ∧ t.eng.pos ≠ 4 :=
  ⟨_, rfl, by decide⟩

/-- Both changes of LIFE, the second by DESTROY and by reset. -/
theorem witness_LifeChangesOnlyByLifecycle :
    leads (host (P0 .default) 0x41 0x1211) (fun t => t.body.eng.life = .active) = true ∧
    leads (host F0 0x42) (fun t => t.body.eng.life = .unconstructed) = true ∧
    leads { host F0 0x42 with cycles := [resetCycle true] } (fun t => t.body.eng.life = .unconstructed) = true := by decide

/-- PERIOD changes by the second edge of a pair. -/
theorem witness_PeriodStaysUntilTheNextPair :
    (edgeB { F0 with ptPhase := true } 0x85 30).eng.life = .active ∧
    leads (edgeB { F0 with ptPhase := true } 0x85 30)
      (fun t => t.body.eng.periodValid = true ∧ t.body.eng.period.toNat = 30) = true := by decide

theorem witness_EveryStepKeepsRegistersSound :
    RegistersSound ⟨.default, edgeA F0 0x81 10⟩ ∧ ∃ t, step ⟨.default, edgeA F0 0x81 10⟩ = .next t := ⟨by decide, _, rfl⟩
theorem witness_EveryStepKeepsPhaseParity :
    PhaseIsEdgeParity ⟨.default, edgeA { F0 with ptPhase := true, diag := ⟨0xFFFFFFFF, 0⟩ } 0x80 10⟩ ∧
    ∃ t, step ⟨.default, edgeA { F0 with ptPhase := true, diag := ⟨0xFFFFFFFF, 0⟩ } 0x80 10⟩ = .next t := ⟨by decide, _, rfl⟩
theorem witness_EveryStepKeepsRegistrations :
    RegistrationsMatch ⟨.default, host F0 0x42⟩ ∧ OneResetDomain ⟨.default, host F0 0x42⟩ ∧
    OneResetDomain ⟨.default, { still F0 with cycles := [resetCycle true] }⟩ ∧
    ∃ t, step ⟨.default, host F0 0x42⟩ = .next t := ⟨by decide, by decide, by decide, _, rfl⟩
theorem witness_ResetAloneLeavesPinsRegistered :
    (resetCycle false).rst = true ∧ (resetCycle false).edgeSourceRst = false ∧
    ({ still F0 with cycles := [resetCycle false] } : Body _).eng.life = .active ∧
    RegistrationsMatch ⟨.default, { still F0 with cycles := [resetCycle false] }⟩ := by decide

/-! ### Witnesses: the assembler, the host's duties, one step of POS -/

theorem witness_AssemblerLinesNameTheirWords :
    isEdge (.edgeB true false) = true ∧ isEdge (.construct 17 18) = false ∧ (255 : Nat) < 2 ^ Params.default.pinIdWidth := by
  decide

/-- A dutiful query; a dutiful reset of the engine alone; a valid and an unknown period. -/
theorem witness_DutifulHostIsServed :
    DutifulHost ⟨.default, host F0 0x00⟩ ∧ nextInstr ⟨.default, host F0 0x00⟩ = some .getPosition ∧
    RegistrationsMatch ⟨.default, host F0 0x00⟩ ∧
    DutifulHost ⟨.default, { still (P0 .default) with cycles := [resetCycle false] }⟩ ∧
    RegistrationsMatch ⟨.default, { still (P0 .default) with cycles := [resetCycle false] }⟩ ∧
    nextInstr ⟨.default, host { F0 with period := 250, periodValid := true } 0x02⟩ = some .getPeriod ∧
    periodRead .default 0x100000000000000FA = some 250 ∧ periodRead .default 0 = none := by decide

/-- Each of these is no dutiful cycle: a query before CONSTRUCT, a reset of an Active engine. -/
theorem test_undutiful_host :
    ¬ DutifulHost ⟨.default, host (P0 .default) 0x00⟩ ∧
    ¬ DutifulHost ⟨.default, { still F0 with cycles := [resetCycle true] }⟩ := by decide

/-- An edge, a CONSTRUCT that is an error, and an idle step. -/
theorem witness_EveryStepAddsItsStepOnce :
    (edgeA F0 0x81 10).eng.life = .active ∧ NoReset 1 (edgeA F0 0x81 10) ∧
    nextInstr ⟨_, edgeA F0 0x81 10⟩ = some (.edgeA false true) ∧
    nextInstr ⟨_, host F0 0x41 0x1514⟩ = some (.construct 20 21) ∧ nextInstr ⟨_, still F0⟩ = none := by decide

end Sys2Proof.Tests
end

section
/-! PROOFS. 00_scope.md: a step runs the instruction its accepted word decodes to (R19), and the values at power-on (R39). -/

namespace Sys2Proof.Machine

variable {p : Params}

/-! ### What a port with a word to present gives up -/

theorem Ports.take_host {q : Ports p} {r : HostRequest p} {rest : List (HostRequest p)} (inp : Inputs)
    (h : q.host = r :: rest) : q.take .host inp = some (r.word, r.wdata, { q with host := rest }) := by
  simp [Ports.take, h]

theorem Ports.take_edgeA {q : Ports p} {w : TxWord} {rest : List TxWord} (inp : Inputs) (h : q.edgeA = w :: rest) :
    q.take .edgeA inp = some (fillLevels inp.levelA inp.levelB w, 0, { q with edgeA := rest }) := by
  simp [Ports.take, h]

theorem Ports.take_edgeB {q : Ports p} {w : TxWord} {rest : List TxWord} (inp : Inputs) (h : q.edgeB = w :: rest) :
    q.take .edgeB inp = some (fillLevels inp.levelA inp.levelB w, 0, { q with edgeB := rest }) := by
  simp [Ports.take, h]

/-! ### A cycle that accepts a word -/

/-- The state an accepted transaction runs in: the cycle and the word are consumed and the last output is gone. -/
def Body.accepted (b : Body p) (c : Cycle) (rest : List Cycle) (port : Port) (left : Ports p) : Body p :=
  { b with cycles := rest, inp := c.inputs b.inp.tick, ports := left, out := ⟨some port, none, []⟩ }

section Accepted

variable {b : Body p} {c : Cycle} {rest : List Cycle} {port : Port} {w : TxWord} {d : BitVec p.wdataWidth} {left : Ports p}

theorem fetch_accepted (hc : b.cycles = c :: rest) (hr : c.rst = false) (ha : c.accept = some port)
    (ht : b.ports.take port (c.inputs b.inp.tick) = some (w, d, left)) :
    fetch b = .transaction port w d (b.accepted c rest port left) := by
  simp [fetch, hc, hr, ha, ht, Outputs.silent, Body.accepted]

theorem step_of_fetch_transaction {b' : Body p} {i : Instr} (hf : fetch b = .transaction port w d b')
    (hd : decode p port w d = .ok i) : step ⟨p, b⟩ = exec i ⟨p, b'⟩ := by
  simp [step, hf, hd]

/-- On any port: the step is the accepted word's instruction (00_scope.md R19). -/
theorem step_accepted {i : Instr} (hc : b.cycles = c :: rest) (hr : c.rst = false) (ha : c.accept = some port)
    (ht : b.ports.take port (c.inputs b.inp.tick) = some (w, d, left)) (hd : decode p port w d = .ok i) :
    step ⟨p, b⟩ = exec i ⟨p, b.accepted c rest port left⟩ :=
  step_of_fetch_transaction (fetch_accepted hc hr ha ht) hd

end Accepted

/-- Settles O7: the step of an accepted word, with what each port gives up; an edge word's levels are the cycle's. -/
theorem stepRunsTheDecodedInstruction : Obligations.StepRunsTheDecodedInstruction := by
  intro p b c rest hc hr
  refine ⟨fun r hs i ha hq hd => ?_, fun w ws i ha hq hd => ?_, fun w ws i ha hq hd => ?_⟩
  · exact step_accepted hc hr ha (Ports.take_host _ hq) hd
  · rw [← fillLevels_eq] at hd
    exact step_accepted hc hr ha (Ports.take_edgeA _ hq) hd
  · rw [← fillLevels_eq] at hd
    exact step_accepted hc hr ha (Ports.take_edgeB _ hq) hd

/-- Settles O17: `State.reset` is the default parameters and `Engine.powerOn`, whose fields are the power-on column of R39. -/
theorem resetValues : Obligations.ResetValues :=
  ⟨rfl, rfl, rfl, rfl, rfl, rfl, rfl, rfl, rfl, rfl, rfl⟩

end Sys2Proof.Machine
end

section
/-! PROOFS. What one instruction and one step can do to the registers and the registrations, case by case; later proofs about
registers go through these cases (10_state.md). -/

namespace Sys2Proof.Machine

variable {p : Params}

/-! ### CONSTRUCT and DESTROY in a known case (44_lifecycle.md R190, R191, R194) -/

section Construct

variable {b : Body p} {pinA pinB : BitVec p.pinIdWidth}

theorem Body.construct_granted (hl : b.eng.life = .unconstructed) (hp : pinA ≠ pinB) (hA : b.inp.grantA = true)
    (hB : b.inp.grantB = true) :
    b.construct pinA pinB = { (b.claim pinA true).claim pinB true with eng := .fresh pinA pinB }.respond .ok 0 := by
  cases b.construct_cases pinA pinB with
  | succeeds _ _ _ _ eq => exact eq
  | _ => simp_all

theorem Body.construct_deniedA (hl : b.eng.life = .unconstructed) (hp : pinA ≠ pinB) (hA : b.inp.grantA = false) :
    b.construct pinA pinB = (b.claim pinA false).raise .hwUnavailable := by
  cases b.construct_cases pinA pinB with
  | deniedA _ _ _ eq => exact eq
  | _ => simp_all

theorem Body.construct_deniedB (hl : b.eng.life = .unconstructed) (hp : pinA ≠ pinB) (hA : b.inp.grantA = true)
    (hB : b.inp.grantB = false) :
    b.construct pinA pinB = (((b.claim pinA true).claim pinB false).release pinA).raise .hwUnavailable := by
  cases b.construct_cases pinA pinB with
  | deniedB _ _ _ _ eq => exact eq
  | _ => simp_all

end Construct

@[simp] theorem Body.destroy_life (b : Body p) : b.destroy.eng.life = .unconstructed := by
  cases hl : b.eng.life with
  | active => rw [Body.destroy_active hl]; rfl
  | unconstructed => rw [Body.destroy_unconstructed hl]; exact hl

/-! ### One instruction -/

/-- What an instruction does to the registers and the registrations. -/
inductive InstrCase (b : Body p) : Instr → Prop where
  /-- Nothing is written; an edge is such only while Unconstructed (42_edge_events.md R144). -/
  | kept (i : Instr) (edge : isEdge i = true → b.eng.life = .unconstructed)
      (eng : (bodyAfter i b).eng = b.eng) (source : (bodyAfter i b).edgeSource = b.edgeSource) : InstrCase b i
  | zeroed (life : b.eng.life = .active) (eng : (bodyAfter .setZero b).eng = { b.eng with pos := 0 })
      (source : (bodyAfter .setZero b).edgeSource = b.edgeSource) : InstrCase b .setZero
  | edge (c : Channel) (la lb : Bool) (st : GrayStep) (life : b.eng.life = .active)
      (step : st.toInt = stepRule (b.eng.prev.get c) (channelState la lb))
      (eng : (bodyAfter (edgeInstr c la lb) b).eng = b.eng.afterEdge c (channelState la lb) (b.inp.now p) st)
      (source : (bodyAfter (edgeInstr c la lb) b).edgeSource = b.edgeSource) : InstrCase b (edgeInstr c la lb)
  /-- Pin B was denied and pin A rolled back (44_lifecycle.md R191). -/
  | rolledBack (m n : Nat) (life : b.eng.life = .unconstructed) (eng : (bodyAfter (.construct m n) b).eng = b.eng)
      (source : (bodyAfter (.construct m n) b).edgeSource.registered =
        (b.edgeSource.registered.insert (pinOperand p m)).filter (fun q => decide (q ≠ pinOperand p m))) :
      InstrCase b (.construct m n)
  | constructed (m n : Nat) (life : b.eng.life = .unconstructed) (pins : pinOperand p m ≠ pinOperand p n)
      (eng : (bodyAfter (.construct m n) b).eng = .fresh (pinOperand p m) (pinOperand p n))
      (source : (bodyAfter (.construct m n) b).edgeSource.registered =
        (b.edgeSource.registered.insert (pinOperand p m)).insert (pinOperand p n))
      (response : (bodyAfter (.construct m n) b).out.response = some ⟨.ok, 0⟩) : InstrCase b (.construct m n)
  | destroyed (life : b.eng.life = .active) (eng : (bodyAfter .destroy b).eng = .powerOn p)
      (source : (bodyAfter .destroy b).edgeSource.registered =
        (b.edgeSource.registered.filter (fun q => decide (q ≠ b.eng.pin.a))).filter
          (fun q => decide (q ≠ b.eng.pin.b))) : InstrCase b .destroy

theorem bodyAfter_edgeInstr (c : Channel) (la lb : Bool) (b : Body p) :
    bodyAfter (edgeInstr c la lb) b = { b with eng := b.eng.edge c (channelState la lb) (b.inp.now p) } := by
  cases c <;> rfl

/-- A query writes nothing, whether it answers or is an error (43_host_ops.md R160, R166). -/
theorem instrCase_answer {i : Instr} {b : Body p} {w : TxWord} {f : Body p → BitVec p.rdataWidth}
    (hi : isEdge i = false) (h : bodyAfter i b = b.whenActive (fun b => b.answer w (f b))) : InstrCase b i := by
  have noEdge : isEdge i = true → b.eng.life = .unconstructed := by simp [hi]
  cases hl : b.eng.life with
  | unconstructed =>
    rw [Body.whenActive_unconstructed hl] at h
    exact .kept i noEdge (by simp [h]) (by simp [h])
  | active =>
    rw [Body.whenActive_active hl] at h
    exact .kept i noEdge (by simp [h]) (by simp [h])

theorem instrCase_edge (c : Channel) (la lb : Bool) (b : Body p) : InstrCase b (edgeInstr c la lb) := by
  cases hl : b.eng.life with
  | unconstructed =>
    exact .kept _ (fun _ => hl) (by simp [bodyAfter_edgeInstr, Engine.edge, hl]) (by simp [bodyAfter_edgeInstr])
  | active =>
    exact .edge c la lb _ hl (grayStep_toInt _ _) (by simp [bodyAfter_edgeInstr, Engine.edge, hl])
      (by simp [bodyAfter_edgeInstr])

theorem instrCase_setZero (b : Body p) : InstrCase b .setZero := by
  cases hl : b.eng.life with
  | unconstructed =>
    have h : bodyAfter .setZero b = b.raise .errState := by
      rw [bodyAfter, Body.whenActive_unconstructed hl]
    exact .kept _ (fun _ => hl) (by simp [h]) (by simp [h])
  | active =>
    have h : bodyAfter .setZero b = b.zeroPosition.respond .ok 0 := by
      rw [bodyAfter, Body.whenActive_active hl]
    exact .zeroed hl (by simp [h]) (by simp [h])

theorem instrCase_construct (m n : Nat) (b : Body p) : InstrCase b (.construct m n) := by
  have h : bodyAfter (.construct m n) b = b.construct (pinOperand p m) (pinOperand p n) := rfl
  have noEdge : isEdge (.construct m n) = true → b.eng.life = .unconstructed := by simp [isEdge]
  cases b.construct_cases (pinOperand p m) (pinOperand p n) with
  | whileActive _ eq => exact .kept _ noEdge (by simp [h, eq]) (by simp [h, eq])
  | equalPins _ _ eq => exact .kept _ noEdge (by simp [h, eq]) (by simp [h, eq])
  | deniedA _ _ _ eq => exact .kept _ noEdge (by simp [h, eq]) (by simp [h, eq])
  | deniedB hl _ _ _ eq => exact .rolledBack m n hl (by simp [h, eq]) (by simp [h, eq])
  | succeeds hl hp _ _ eq => exact .constructed m n hl hp (by simp [h, eq]) (by simp [h, eq]) (by simp [h, eq])

theorem instrCase_destroy (b : Body p) : InstrCase b .destroy := by
  cases hl : b.eng.life with
  | unconstructed =>
    have h : bodyAfter .destroy b = b.respond .ok 0 := Body.destroy_unconstructed hl
    exact .kept _ (fun _ => hl) (by simp [h]) (by simp [h])
  | active =>
    have h := Body.destroy_active hl
    exact .destroyed hl (by simp [bodyAfter, h]) (by simp [bodyAfter, h])

/-- Every instruction does one of the six. -/
theorem instr_cases (i : Instr) (b : Body p) : InstrCase b i := by
  cases i with
  | getPosition => exact instrCase_answer rfl (by rw [bodyAfter])
  | getDirection => exact instrCase_answer rfl (by rw [bodyAfter])
  | getPeriod => exact instrCase_answer rfl (by rw [bodyAfter])
  | getDiagnostics => exact instrCase_answer rfl (by rw [bodyAfter])
  | setZero => exact instrCase_setZero b
  | construct m n => exact instrCase_construct m n b
  | destroy => exact instrCase_destroy b
  | edgeA la lb => exact instrCase_edge .A la lb b
  | edgeB la lb => exact instrCase_edge .B la lb b

/-! ### One step -/

/-- What a step does to the registers and the registrations. -/
inductive StepCase (b : Body p) : Prop where
  | reset (c : Cycle) (rest : List Cycle) (cycles : b.cycles = c :: rest) (rst : c.rst = true)
      (eng : (stepBody b).eng = .powerOn p)
      (source : (stepBody b).edgeSource = if c.edgeSourceRst = true then ⟨[]⟩ else b.edgeSource)
  /-- An idle step or an illegal word. -/
  | noInstr (next : nextInstr ⟨p, b⟩ = none) (eng : (stepBody b).eng = b.eng)
      (source : (stepBody b).edgeSource = b.edgeSource)
  /-- The instruction `i` runs in `b'`, which has the registers and registrations of `b`. -/
  | instr (i : Instr) (b' : Body p) (next : nextInstr ⟨p, b⟩ = some i) (eng : b'.eng = b.eng)
      (source : b'.edgeSource = b.edgeSource) (eq : stepBody b = bodyAfter i b')

theorem step_next_state {s t : State} (h : step s = .next t) : t = ⟨s.params, stepBody s.body⟩ := by
  rw [step_eq] at h
  exact (Host.Outcome.next.inj h).symm

/-- The step of a cycle with `rst` asserted (70_reset_and_hazards.md R240). -/
theorem stepBody_of_rst {b : Body p} {c : Cycle} {rest : List Cycle} (hc : b.cycles = c :: rest) (hr : c.rst = true) :
    stepBody b =
      ({ b with cycles := rest, inp := c.inputs b.inp.tick, out := .silent p } : Body p).powerOnReset c.edgeSourceRst := by
  simp [stepBody, fetch, hc, hr]

theorem step_cases (b : Body p) : StepCase b := by
  cases fetch_cases b with
  | noCycle _ eq => exact .noInstr (by simp [nextInstr, eq]) (by simp [stepBody, eq]) (by simp [stepBody, eq])
  | reset c rest cycles rst =>
    have h := stepBody_of_rst cycles rst
    exact .reset c rest cycles rst (by simp [h]) (by simp [h])
  | nothing _ _ _ _ _ eq => exact .noInstr (by simp [nextInstr, eq]) (by simp [stepBody, eq]) (by simp [stepBody, eq])
  | transaction c rest _ _ port _ w d left _ eq =>
    cases hd : decode p port w d with
    | error _ => exact .noInstr (by simp [nextInstr, eq, hd]) (by simp [stepBody, eq, hd]) (by simp [stepBody, eq, hd])
    | ok i =>
      exact .instr i (b.accepted c rest port left) (by simp [nextInstr, eq, hd]) rfl rfl
        (by simp [stepBody, eq, hd, Body.accepted])

/-- A property of registers and registrations that a reset cycle gives and every instruction keeps is kept by every step. -/
theorem stepBody_keeps {I : Engine p → EdgeSource p → Prop} {b : Body p}
    (hreset : ∀ c ∈ b.cycles.take 1, c.rst = true →
      I (.powerOn p) (if c.edgeSourceRst = true then ⟨[]⟩ else b.edgeSource))
    (hinstr : ∀ i (b' : Body p), I b'.eng b'.edgeSource → I (bodyAfter i b').eng (bodyAfter i b').edgeSource)
    (h : I b.eng b.edgeSource) : I (stepBody b).eng (stepBody b).edgeSource := by
  cases step_cases b with
  | reset c rest cycles rst eng source =>
    rw [eng, source]
    exact hreset c (by simp [cycles]) rst
  | noInstr _ eng source => rwa [eng, source]
  | instr i b' _ eng source eq =>
    rw [eq]
    exact hinstr i b' (by rwa [eng, source])

end Sys2Proof.Machine
end

section
/-! PROOFS. 10_state.md: the invariants of the registers and of the registrations, at reset and over every step. -/

namespace Sys2Proof.Machine

variable {p : Params}

/-! ### The registers' invariant (10_state.md R39, R41, 44_lifecycle.md R192) -/

/-- The registers' part of `RegistersSound`. -/
def Engine.Sound (e : Engine p) : Prop :=
  (e.periodValid = false → e.period = 0) ∧ (e.life = .unconstructed → e = .powerOn p) ∧
  (e.life = .active → e.pin.a ≠ e.pin.b)

theorem registersSound_iff (b : Body p) : RegistersSound ⟨p, b⟩ ↔ p.Legal ∧ b.eng.Sound := Iff.rfl

theorem Engine.powerOn_sound : (Engine.powerOn p).Sound := ⟨fun _ => rfl, fun _ => rfl, nofun⟩

theorem Engine.fresh_sound {pinA pinB : BitVec p.pinIdWidth} (h : pinA ≠ pinB) : (Engine.fresh pinA pinB).Sound :=
  ⟨fun _ => rfl, nofun, fun _ => h⟩

/-- An edge leaves PERIOD and PERIOD_VALID alone or makes the period valid (41_pulse_timer.md R121). -/
theorem Engine.afterEdge_sound {c : Channel} {cur : ChanState} {now : BitVec p.tsWidth} {st : GrayStep} {e : Engine p}
    (hl : e.life = .active) (h : e.Sound) : (e.afterEdge c cur now st).Sound := by
  obtain ⟨hperiod, -, hpins⟩ := h
  obtain ⟨hodd, heven⟩ := e.afterEdge_timerEffect c cur now st
  refine ⟨fun hv => ?_, fun hu => ?_, fun _ => by simpa using hpins hl⟩
  · cases hph : e.ptPhase with
    | false =>
      obtain ⟨-, -, hp, hpv⟩ := hodd hph
      rw [hp]
      exact hperiod (hpv ▸ hv)
    | true =>
      obtain ⟨-, -, -, hpv⟩ := heven hph
      simp [hpv] at hv
  · simp [hl] at hu

theorem bodyAfter_sound (i : Instr) (b : Body p) (h : b.eng.Sound) : (bodyAfter i b).eng.Sound := by
  cases instr_cases i b with
  | kept _ _ eng => rwa [eng]
  | zeroed life eng =>
    obtain ⟨hperiod, -, hpins⟩ := h
    rw [eng]
    exact ⟨hperiod, fun hu => by simp [life] at hu, hpins⟩
  | edge _ _ _ _ life _ eng => rw [eng]; exact Engine.afterEdge_sound life h
  | rolledBack _ _ _ eng => rwa [eng]
  | constructed _ _ _ pins eng => rw [eng]; exact Engine.fresh_sound pins
  | destroyed _ eng => rw [eng]; exact Engine.powerOn_sound

/-- Settles O51: the default parameters are legal and the engine is at its power-on values. -/
theorem registersSoundAtReset : Obligations.RegistersSoundAtReset :=
  ⟨by decide, Engine.powerOn_sound⟩

/-- Settles O52: `Engine.Sound` is given by reset and kept by every instruction. -/
theorem everyStepKeepsRegistersSound : Obligations.EveryStepKeepsRegistersSound := by
  rintro ⟨p, b⟩ t h ht
  obtain rfl := step_next_state ht
  rw [registersSound_iff] at h ⊢
  obtain ⟨hlegal, hsound⟩ := h
  exact ⟨hlegal, stepBody_keeps (I := fun e _ => e.Sound) (fun _ _ _ => Engine.powerOn_sound)
    bodyAfter_sound hsound⟩

/-! ### PT_PHASE and the counters (10_state.md R28, R31) -/

/-- The registers' part of `PhaseIsEdgeParity`. -/
def Engine.PhaseCounts (e : Engine p) : Prop :=
  e.ptPhase = decide ((e.diag.a.toNat + e.diag.b.toNat) % 2 = 1)

theorem phaseIsEdgeParity_iff (b : Body p) : PhaseIsEdgeParity ⟨p, b⟩ ↔ 1 ≤ p.diagWidth ∧ b.eng.PhaseCounts := Iff.rfl

/-- The wrap of a counter of at least one bit keeps the parity, since 2^w is even. -/
theorem toNat_add_one_mod_two {w : Nat} (hw : 1 ≤ w) (x : BitVec w) : (x + 1).toNat % 2 = (x.toNat + 1) % 2 := by
  have hdvd : 2 ∣ 2 ^ w := dvd_pow_self 2 (by omega)
  rw [BitVec.toNat_add, Nat.mod_mod_of_dvd _ hdvd, show (1 : BitVec w).toNat = 1 from BitVec.toNat_one hw]

theorem Engine.powerOn_phaseCounts : (Engine.powerOn p).PhaseCounts := by simp [Engine.PhaseCounts, Engine.powerOn]

theorem Engine.fresh_phaseCounts (pinA pinB : BitVec p.pinIdWidth) : (Engine.fresh pinA pinB).PhaseCounts := by
  simp [Engine.PhaseCounts, Engine.fresh]

/-- An edge flips PT_PHASE and the parity of its channel's counter. -/
theorem Engine.afterEdge_phaseCounts (hw : 1 ≤ p.diagWidth) {c : Channel} {cur : ChanState} {now : BitVec p.tsWidth}
    {st : GrayStep} {e : Engine p} (h : e.PhaseCounts) : (e.afterEdge c cur now st).PhaseCounts := by
  have hcount : ((e.afterEdge c cur now st).diag.a.toNat + (e.afterEdge c cur now st).diag.b.toNat) % 2 =
      (e.diag.a.toNat + e.diag.b.toNat + 1) % 2 := by
    rw [Engine.afterEdge_diag]
    have hc := toNat_add_one_mod_two hw (e.diag.get c)
    cases c with
    | A => simp only [PerChannel.get_A, PerChannel.set_A_a, PerChannel.set_A_b] at hc ⊢; omega
    | B => simp only [PerChannel.get_B, PerChannel.set_B_a, PerChannel.set_B_b] at hc ⊢; omega
  unfold Engine.PhaseCounts at h ⊢
  rw [hcount, Engine.afterEdge_ptPhase, h, ← decide_not, decide_eq_decide]
  omega

theorem bodyAfter_phaseCounts (hw : 1 ≤ p.diagWidth) (i : Instr) (b : Body p) (h : b.eng.PhaseCounts) :
    (bodyAfter i b).eng.PhaseCounts := by
  cases instr_cases i b with
  | kept _ _ eng => rwa [eng]
  | zeroed _ eng => rwa [eng]
  | edge _ _ _ _ _ _ eng => rw [eng]; exact Engine.afterEdge_phaseCounts hw h
  | rolledBack _ _ _ eng => rwa [eng]
  | constructed _ _ _ _ eng => rw [eng]; exact Engine.fresh_phaseCounts _ _
  | destroyed _ eng => rw [eng]; exact Engine.powerOn_phaseCounts

/-- Settles O53: no edge is counted and PT_PHASE is 0. -/
theorem phaseIsEdgeParityAtReset : Obligations.PhaseIsEdgeParityAtReset :=
  ⟨by decide, Engine.powerOn_phaseCounts⟩

/-- Settles O54: `Engine.PhaseCounts` is given by reset and kept by every instruction. -/
theorem everyStepKeepsPhaseParity : Obligations.EveryStepKeepsPhaseParity := by
  rintro ⟨p, b⟩ t h ht
  obtain rfl := step_next_state ht
  rw [phaseIsEdgeParity_iff] at h ⊢
  obtain ⟨hw, hphase⟩ := h
  exact ⟨hw, stepBody_keeps (I := fun e _ => e.PhaseCounts) (fun _ _ _ => Engine.powerOn_phaseCounts)
    (bodyAfter_phaseCounts hw) hphase⟩

/-! ### LIFE and the registrations (10_state.md R40) -/

/-- The registrations an engine should hold: those of its two different pins while Active, else none. -/
inductive HoldsPins (e : Engine p) (s : EdgeSource p) : Prop where
  | active (life : e.life = .active) (pins : e.pin.a ≠ e.pin.b) (registered : s.registered = [e.pin.b, e.pin.a])
  | unconstructed (life : e.life = .unconstructed) (registered : s.registered = [])

theorem registrationsMatch_iff (b : Body p) : RegistrationsMatch ⟨p, b⟩ ↔ HoldsPins b.eng b.edgeSource := by
  constructor
  · rintro ⟨hpins, hreg⟩
    cases hl : b.eng.life with
    | active => exact .active hl (hpins hl) (by simpa [hl] using hreg)
    | unconstructed => exact .unconstructed hl (by simpa [hl] using hreg)
  · rintro (⟨hl, hp, hr⟩ | ⟨hl, hr⟩)
    · exact ⟨fun _ => hp, by simp [hl, hr]⟩
    · exact ⟨fun h => by simp [hl] at h, by simp [hl, hr]⟩

theorem HoldsPins.registered_active {e : Engine p} {s : EdgeSource p} (h : HoldsPins e s) (hl : e.life = .active) :
    e.pin.a ≠ e.pin.b ∧ s.registered = [e.pin.b, e.pin.a] := by
  cases h with
  | active _ hp hr => exact ⟨hp, hr⟩
  | unconstructed hu _ => simp [hl] at hu

theorem HoldsPins.registered_unconstructed {e : Engine p} {s : EdgeSource p} (h : HoldsPins e s)
    (hl : e.life = .unconstructed) :
    s.registered = [] := by
  cases h with
  | active ha _ _ => simp [hl] at ha
  | unconstructed _ hr => exact hr

/-- Registers that LIFE and PIN do not name do not matter. -/
theorem HoldsPins.congr {e e' : Engine p} {s : EdgeSource p} (h : HoldsPins e s) (hl : e'.life = e.life)
    (hp : e'.pin = e.pin) : HoldsPins e' s := by
  cases h with
  | active l pins r => exact .active (hl.trans l) (by rwa [hp]) (by rwa [hp])
  | unconstructed l r => exact .unconstructed (hl.trans l) r

theorem bodyAfter_holdsPins (i : Instr) (b : Body p) (h : HoldsPins b.eng b.edgeSource) :
    HoldsPins (bodyAfter i b).eng (bodyAfter i b).edgeSource := by
  cases instr_cases i b with
  | kept _ _ eng source => rwa [eng, source]
  | zeroed _ eng source => rw [eng, source]; exact h.congr rfl rfl
  | edge _ _ _ _ _ _ eng source => rw [eng, source]; exact h.congr (by simp) (by simp)
  | rolledBack _ _ life eng source =>
    rw [eng]
    exact .unconstructed life (by simp [source, h.registered_unconstructed life])
  | constructed _ _ life pins eng source =>
    rw [eng]
    exact .active rfl pins (by simp [source, h.registered_unconstructed life, pins.symm, Engine.fresh])
  | destroyed life eng source =>
    obtain ⟨hpins, hreg⟩ := h.registered_active life
    rw [eng]
    exact .unconstructed rfl (by simp [source, hreg, hpins.symm])

/-- Settles O55: after reset the engine is Unconstructed and the list is empty. -/
theorem registrationsMatchAtReset : Obligations.RegistrationsMatchAtReset :=
  (registrationsMatch_iff _).mpr (.unconstructed rfl rfl)

/-- Settles O56: every instruction keeps `HoldsPins`, and so does a reset cycle that resets the Edge Source too. -/
theorem everyStepKeepsRegistrations : Obligations.EveryStepKeepsRegistrations := by
  rintro ⟨p, b⟩ t hmatch hdomain ht
  obtain rfl := step_next_state ht
  rw [registrationsMatch_iff] at hmatch ⊢
  refine stepBody_keeps (I := HoldsPins) (fun c hc hrst => .unconstructed rfl ?_) bodyAfter_holdsPins hmatch
  simp [hdomain c hc hrst]

/-! ### POS over one step (20_memory.md R60) -/

theorem samples_edgeInstr (c c' : Channel) (la lb : Bool) :
    samples c [edgeInstr c' la lb] = if c' = c then [channelState la lb] else [] := by
  cases c <;> cases c' <;> simp [samples, edgeInstr, sampleOf]

theorem samples_of_not_isEdge {i : Instr} (h : isEdge i = false) (c : Channel) : samples c [i] = [] := by
  cases i <;> simp_all [samples, sampleOf, isEdge]

/-- The two channels' account of one edge is the step of its own channel. -/
theorem pathSum_edgeInstr (c : Channel) (la lb : Bool) (prev : PerChannel ChanState) :
    pathSum prev.a (samples .A [edgeInstr c la lb]) + pathSum prev.b (samples .B [edgeInstr c la lb]) =
      stepRule (prev.get c) (channelState la lb) := by
  cases c <;> simp [samples_edgeInstr, pathSum]

/-- Settles O60: an edge adds its own step, and whatever else runs on an Active engine here writes no register. -/
theorem everyStepAddsItsStepOnce : Obligations.EveryStepAddsItsStepOnce := by
  intro p b t ht hlife hreset hzero hdestroy
  obtain rfl := step_next ht
  cases step_cases b with
  | reset c rest cycles rst => simp [NoReset, cycles, rst] at hreset
  | noInstr next eng => simp [next, eng, hlife, samples, pathSum]
  | instr i b' next eng _ eq =>
    rw [eq, next]
    cases instr_cases i b' with
    | kept _ edge eng' =>
      have hi : isEdge i = false := by
        cases h : isEdge i with
        | false => rfl
        | true => simpa [eng, hlife] using edge h
      simp [eng', eng, hlife, samples_of_not_isEdge hi, pathSum]
    | zeroed => exact absurd next hzero
    | edge c la lb st _ step eng' =>
      rw [eng', eng]
      refine ⟨by simpa using hlife, ?_⟩
      rw [Engine.afterEdge_pos, step, eng, Option.toList_some, Int.add_assoc, pathSum_edgeInstr]
    | rolledBack _ _ life => simp [eng, hlife] at life
    | constructed _ _ life => simp [eng, hlife] at life
    | destroyed => exact absurd next hdestroy

end Sys2Proof.Machine
end

section
/-! PROOFS. 10_state.md: what GET_DIRECTION answers, the lifecycle's instructions register by register, who may write which
register, and a cycle with `rst` asserted. -/

namespace Sys2Proof.Machine

variable {p : Params}

/-- Settles O33: the answer is DIR's bit, or ERR_STATE while Unconstructed. -/
theorem getDirectionAnswers : Obligations.GetDirectionAnswers := by
  intro p b
  refine ⟨fun _ => rfl, fun hl => ⟨directionData b.eng, directionData_toNat b.eng, ?_⟩, fun hl => ?_⟩
  · rw [exec_eq, bodyAfter, Body.whenActive_active hl, Body.answer_eq]
  · rw [exec_eq, bodyAfter, Body.whenActive_unconstructed hl]
    rfl

/-- Settles O41: the two granted claims insert their pins, and the registers are `Engine.fresh`. -/
theorem constructSucceeds : Obligations.ConstructSucceeds := by
  intro p b pinA pinB hl (hp : pinOperand p pinA ≠ pinOperand p pinB) hA hB
  refine ⟨_, exec_eq _ b, ?_⟩
  rw [bodyAfter, Body.construct_granted hl hp hA hB]
  refine ⟨rfl, rfl, rfl, rfl, rfl, rfl, rfl, rfl, rfl, rfl, rfl, rfl, ?_, fun q => ?_, rfl, rfl, rfl⟩
  · simp [pinOperand]
  · simp [pinOperand, or_left_comm]

/-- Settles O42: a claim of A that is denied writes no registration, and the release of A undoes its granted claim. -/
theorem deniedConstructRollsBack : Obligations.DeniedConstructRollsBack := by
  intro p b pinA pinB hl (hp : pinOperand p pinA ≠ pinOperand p pinB)
  refine ⟨fun hA => ?_, fun hA hB => ?_⟩
  · rw [exec_eq, bodyAfter, Body.construct_deniedA hl hp hA]
    rfl
  · refine ⟨⟨(b.edgeSource.registered.insert (pinOperand p pinA)).filter (fun q => decide (q ≠ pinOperand p pinA))⟩,
      ?_, fun q => ?_, fun hnil => ?_⟩
    · rw [exec_eq, bodyAfter, Body.construct_deniedB hl hp hA hB]
      simp [Body.claim, Body.release, Body.raise, Body.respond, Body.emit, pinOperand]
    · by_cases hq : q = pinOperand p pinA <;> simp_all [pinOperand]
    · simp [hnil]

/-- Settles O45: the two releases filter their pins out, and the registers are `Engine.powerOn`. -/
theorem destroyReleasesAndClears : Obligations.DestroyReleasesAndClears := by
  intro p b hl
  refine ⟨_, exec_eq _ b, ?_⟩
  rw [bodyAfter, Body.destroy_active hl]
  refine ⟨rfl, rfl, rfl, rfl, rfl, rfl, rfl, rfl, rfl, rfl, rfl, rfl, ?_, fun q => ?_, rfl, rfl, rfl⟩
  · simp
  · simp [and_comm, and_assoc]

/-- Settles O47: DESTROY leaves the engine Unconstructed from any state, and CONSTRUCT then writes every register. -/
theorem reconstructionStartsAfresh : Obligations.ReconstructionStartsAfresh := by
  intro p b pinA pinB hA hB (hp : pinOperand p pinA ≠ pinOperand p pinB)
  have hinp : b.destroy.inp = b.inp := bodyAfter_inp .destroy b
  refine ⟨b.destroy, _, exec_eq .destroy b, exec_eq _ _, ?_⟩
  rw [bodyAfter, Body.construct_granted b.destroy_life hp (hinp ▸ hA) (hinp ▸ hB)]
  exact ⟨rfl, rfl⟩

/-- Settles O48: by what each instruction does to the registers. -/
theorem registerWriteMatrix : Obligations.RegisterWriteMatrix := by
  intro p b t i ht
  obtain rfl := exec_next ht
  cases instr_cases i b with
  | kept _ _ eng => simp [eng]
  | zeroed _ eng => simp [eng]
  | edge c la lb st _ _ eng =>
    rw [eng]
    cases c <;> simp [edgeInstr, sampleOf]
  | rolledBack => simp [isConstruct]
  | constructed => simp [isConstruct]
  | destroyed => simp

/-- Settles O49: of a step's cases only a CONSTRUCT with both claims granted enters Active, and only DESTROY and reset leave
it. -/
theorem lifeChangesOnlyByLifecycle : Obligations.LifeChangesOnlyByLifecycle := by
  intro p b t ht
  obtain rfl := step_next ht
  cases step_cases b with
  | reset c rest cycles rst eng => simp [eng, Engine.powerOn, cycles, rst]
  | noInstr _ eng => simp +contextual [eng]
  | instr i b' next eng _ eq =>
    rw [eq, next, ← eng]
    cases instr_cases i b' with
    | kept _ _ eng' => simp +contextual [eng']
    | zeroed _ eng' => simp +contextual [eng']
    | edge _ _ _ _ _ _ eng' => simp +contextual [eng']
    | rolledBack _ _ _ eng' => simp +contextual [eng']
    | constructed _ _ life _ _ _ response => simp [life, response, isConstruct]
    | destroyed life => simp [life]

/-- Settles O9: a cycle with `rst` leaves `Engine.powerOn` and a silent output. -/
theorem powerOnReset : Obligations.PowerOnReset := by
  intro p b c rest hc hr
  refine ⟨_, step_eq b, ?_⟩
  rw [stepBody_of_rst hc hr]
  refine ⟨rfl, rfl, rfl, rfl, rfl, rfl, rfl, rfl, rfl, rfl, rfl, rfl, rfl, fun hs => ?_, fun hs => ?_⟩
  · simp [hs]
  · simp [hs]

end Sys2Proof.Machine
end

section
/-! PROOFS. 20_memory.md: which port's word a step takes (R57), the account of POS, PREV and DIAG over a run (R60, R61), and
repeated host operations (R56). -/

namespace Sys2Proof.Machine

variable {p : Params}

/-! ### Which port's word a step takes (20_memory.md R57, 60_exceptions.md R226) -/

theorem Body.ready_nil {b : Body p} (hc : b.cycles = []) (port : Port) : b.ready port = false := by
  simp [Body.ready, hc]

theorem Body.ready_cons {b : Body p} {c : Cycle} {rest : List Cycle} (hc : b.cycles = c :: rest) (port : Port) :
    b.ready port = true ↔ c.rst = false ∧ c.accept = some port := by
  simp [Body.ready, hc]

@[simp] theorem Body.illegalWord_accepted (b : Body p) (port : Port) :
    (b.illegalWord port).out.accepted = b.out.accepted := by
  cases port <;> rfl

/-- A transaction, legal word or not, leaves the ports, the accepted port and the schedule as the acceptance set them. -/
theorem stepBody_of_fetch_transaction {b b' : Body p} {port : Port} {w : TxWord} {d : BitVec p.wdataWidth}
    (hf : fetch b = .transaction port w d b') :
    (stepBody b).ports = b'.ports ∧ (stepBody b).out.accepted = b'.out.accepted ∧ (stepBody b).cycles = b'.cycles := by
  cases hd : decode p port w d with
  | ok i => simp [stepBody, hf, hd]
  | error e => simp [stepBody, hf, hd]

/-- What a step does to the ports. -/
inductive TakeCase (b : Body p) : Prop where
  | nothing (offered : ∀ port, b.valid port = true → b.ready port = false) (accepted : (stepBody b).out.accepted = none)
      (ports : (stepBody b).ports = b.ports)
  | word (port : Port) (valid : b.valid port = true) (ready : ∀ q, b.ready q = true ↔ q = port)
      (accepted : (stepBody b).out.accepted = some port) (inp : Inputs) (w : TxWord) (d : BitVec p.wdataWidth)
      (taken : b.ports.take port inp = some (w, d, (stepBody b).ports))

theorem take_cases (b : Body p) : TakeCase b := by
  cases fetch_cases b with
  | noCycle cycles eq =>
    exact .nothing (fun port _ => Body.ready_nil cycles port) (by simp [stepBody, eq, Outputs.silent]) (by simp [stepBody, eq])
  | reset c rest cycles rst =>
    have h := stepBody_of_rst cycles rst
    exact .nothing (fun port _ => by simp [Body.ready, cycles, rst]) (by simp [h, Outputs.silent]) (by simp [h])
  | nothing c rest cycles _ none eq =>
    refine .nothing (fun port hv => ?_) (by simp [stepBody, eq, Outputs.silent]) (by simp [stepBody, eq])
    rw [Bool.eq_false_iff, ne_eq, Body.ready_cons cycles]
    rintro ⟨-, ha⟩
    obtain h | ⟨q, hq, hnv⟩ := none
    · simp [ha] at h
    · obtain rfl : port = q := by simpa [ha] using hq
      simp [hv] at hnv
  | transaction c rest cycles rst port accept w d left taken eq =>
    obtain ⟨hports, haccepted, -⟩ := stepBody_of_fetch_transaction eq
    refine .word port ?_ (fun q => ?_) haccepted _ w d (by rw [hports]; exact taken)
    · simp [← Ports.take_isSome port (c.inputs b.inp.tick), taken]
    · simp [Body.ready_cons cycles, rst, accept, eq_comm]

/-- Settles O12: a step takes no word, or the oldest word of the one port that is ready. -/
theorem eachPortKeepsItsOrder : Obligations.EachPortKeepsItsOrder := by
  intro p b t ht
  obtain rfl := step_next ht
  cases take_cases b with
  | nothing offered accepted ports => simpa [accepted, ports] using offered
  | word port valid ready accepted inp w d taken =>
    refine ⟨fun q => ?_, by simpa [accepted] using Ports.take_some taken⟩
    rw [accepted, ready, Option.some_inj]
    constructor
    · rintro rfl
      exact ⟨valid, rfl⟩
    · rintro ⟨-, rfl⟩
      rfl

/-! ### POS, PREV and DIAG over a run (20_memory.md R60, R61) -/

/-- Sums of steps over two parts of a run: the second part is decoded from the last sample of the first. -/
theorem pathSum_append (prev : ChanState) (xs ys : List ChanState) :
    pathSum prev (xs ++ ys) = pathSum prev xs + pathSum (xs.getLast?.getD prev) ys := by
  induction xs generalizing prev with
  | nil => simp [pathSum]
  | cons x xs ih => simp [pathSum, ih, List.getLast?_cons, Int.add_assoc]

theorem samples_append (c : Channel) (is js : List Instr) : samples c (is ++ js) = samples c is ++ samples c js :=
  List.filterMap_append

/-- The registers `e'` of an Active engine that started from `e` and carried out `is`: every edge applied its step once, was
counted once and left its sample (20_memory.md R60, 42_edge_events.md R147). -/
structure Accounts (e : Engine p) (is : List Instr) (e' : Engine p) : Prop where
  life : e'.life = .active
  pos : e'.pos = BitVec.ofInt _ (e.pos.toInt + pathSum e.prev.a (samples .A is) + pathSum e.prev.b (samples .B is))
  diag : ∀ c, e'.diag.get c = e.diag.get c + BitVec.ofNat _ (samples c is).length
  prev : ∀ c, e'.prev.get c = (samples c is).getLast?.getD (e.prev.get c)

theorem Accounts.nil {e : Engine p} (h : e.life = .active) : Accounts e [] e :=
  ⟨h, by simp [samples, pathSum], by simp [samples], by simp [samples]⟩

theorem Accounts.append {e e' e'' : Engine p} {is js : List Instr} (h : Accounts e is e') (h' : Accounts e' js e'') :
    Accounts e (is ++ js) e'' where
  life := h'.life
  pos := by
    have hA : e'.prev.a = (samples .A is).getLast?.getD e.prev.a := h.prev .A
    have hB : e'.prev.b = (samples .B is).getLast?.getD e.prev.b := h.prev .B
    rw [h'.pos, h.pos, hA, hB]
    simp only [samples_append, pathSum_append, BitVec.ofInt_add, BitVec.ofInt_toInt]
    ac_rfl
  diag c := by rw [h'.diag, h.diag, samples_append, List.length_append, BitVec.ofNat_add, BitVec.add_assoc]
  prev c := by
    rw [h'.prev, h.prev, samples_append, List.getLast?_append]
    cases (samples c js).getLast? <;> rfl

/-- An instruction that sets no origin counts and keeps the samples it brings (42_edge_events.md R140, R151). -/
theorem bodyAfter_diag_prev {i : Instr} {b : Body p} (hl : b.eng.life = .active) (hi : setsOrigin i = false) (c : Channel) :
    (bodyAfter i b).eng.diag.get c = b.eng.diag.get c + BitVec.ofNat _ (samples c [i]).length ∧
    (bodyAfter i b).eng.prev.get c = (samples c [i]).getLast?.getD (b.eng.prev.get c) := by
  cases instr_cases i b with
  | kept _ edge eng =>
    have noEdge : isEdge i = false := Bool.eq_false_iff.mpr fun h => by simpa [hl] using edge h
    simp [eng, samples_of_not_isEdge noEdge]
  | edge c' la lb st _ _ eng =>
    rw [eng, samples_edgeInstr, Engine.afterEdge_diag, Engine.afterEdge_prev]
    by_cases hc : c' = c
    · subst hc
      simp
    · simp [hc, PerChannel.get_set_other _ _ (Ne.symm hc)]
  | zeroed => simp [setsOrigin] at hi
  | rolledBack => simp [setsOrigin] at hi
  | constructed => simp [setsOrigin] at hi
  | destroyed => simp [setsOrigin] at hi

/-- The same of a step, which may be an idle one or an illegal word. -/
theorem stepBody_diag_prev {b : Body p} (hl : b.eng.life = .active) (hr : NoReset 1 b)
    (ho : ∀ i ∈ nextInstr ⟨p, b⟩, setsOrigin i = false) (c : Channel) :
    (stepBody b).eng.diag.get c = b.eng.diag.get c + BitVec.ofNat _ (samples c (nextInstr ⟨p, b⟩).toList).length ∧
    (stepBody b).eng.prev.get c = (samples c (nextInstr ⟨p, b⟩).toList).getLast?.getD (b.eng.prev.get c) := by
  cases step_cases b with
  | reset c rest cycles rst => simp [NoReset, cycles, rst] at hr
  | noInstr next eng => simp [next, eng, samples]
  | instr i b' next eng _ eq =>
    rw [eq, next, ← eng]
    exact bodyAfter_diag_prev (eng ▸ hl) (ho i next) c

theorem stepBody_accounts {b : Body p} (hl : b.eng.life = .active) (hr : NoReset 1 b)
    (ho : ∀ i ∈ nextInstr ⟨p, b⟩, setsOrigin i = false) :
    Accounts b.eng (nextInstr ⟨p, b⟩).toList (stepBody b).eng := by
  have hzero : nextInstr ⟨p, b⟩ ≠ some .setZero := fun h => nomatch ho _ h
  have hdestroy : nextInstr ⟨p, b⟩ ≠ some .destroy := fun h => nomatch ho _ h
  obtain ⟨life, pos⟩ := everyStepAddsItsStepOnce p b _ (step_eq b) hl hr hzero hdestroy
  have counts := stepBody_diag_prev hl hr ho
  exact ⟨life, pos, fun c => (counts c).left, fun c => (counts c).right⟩

/-- A step consumes the oldest cycle and no other. -/
theorem stepBody_cycles (b : Body p) : (stepBody b).cycles = b.cycles.tail := by
  cases fetch_cases b with
  | noCycle cycles eq => simp [stepBody, eq, cycles]
  | reset c rest cycles rst => simp [stepBody_of_rst cycles rst, cycles]
  | nothing c rest cycles _ _ eq => simp [stepBody, eq, cycles]
  | transaction c rest cycles _ _ _ _ _ _ _ eq =>
    obtain ⟨-, -, h⟩ := stepBody_of_fetch_transaction eq
    simp [h, cycles]

theorem NoReset.succ {n : Nat} {b : Body p} (h : NoReset (n + 1) b) : NoReset 1 b ∧ NoReset n (stepBody b) := by
  unfold NoReset at h ⊢
  rw [stepBody_cycles]
  cases hc : b.cycles with
  | nil => simp
  | cons c rest => simpa [hc] using h

theorem run_accounts (n : Nat) {b : Body p} (hl : b.eng.life = .active) (hr : NoReset n b)
    (ho : ∀ i ∈ trace n ⟨p, b⟩, setsOrigin i = false) :
    ∃ t : Body p, Runs n ⟨p, b⟩ ⟨p, t⟩ ∧ Accounts b.eng (trace n ⟨p, b⟩) t.eng := by
  induction n generalizing b with
  | zero => exact ⟨b, rfl, .nil hl⟩
  | succ n ih =>
    rw [trace_succ] at ho ⊢
    obtain ⟨hr1, hrn⟩ := hr.succ
    have first := stepBody_accounts hl hr1 fun i hi => ho i (by simp [Option.mem_def.mp hi])
    obtain ⟨t, hrun, rest⟩ := ih first.life hrn fun i hi => ho i (List.mem_append_right _ hi)
    exact ⟨t, runs_succ.mpr hrun, first.append rest⟩

/-- Settles O28: each step accounts for its own instruction, and accounts add up along a run. -/
theorem noStepIsLost : Obligations.NoStepIsLost := by
  intro p b n hl hr ho
  obtain ⟨t, hrun, account⟩ := run_accounts n hl hr ho
  exact ⟨t, hrun, account.life, account.pos, account.diag, account.prev⟩

theorem Runs.unique {n : Nat} {s : State} {t t' : Body p} (h : Runs n s ⟨p, t⟩) (h' : Runs n s ⟨p, t'⟩) : t = t' := by
  have hs : (⟨p, t⟩ : State) = ⟨p, t'⟩ := Host.Outcome.next.inj (h.symm.trans h')
  simpa using hs

/-- A run that ends in `t` has `t` accounted for. -/
theorem Runs.accounts {n : Nat} {b t : Body p} (h : Runs n ⟨p, b⟩ ⟨p, t⟩) (hl : b.eng.life = .active) (hr : NoReset n b)
    (ho : ∀ i ∈ trace n ⟨p, b⟩, setsOrigin i = false) : Accounts b.eng (trace n ⟨p, b⟩) t.eng := by
  obtain ⟨t', hrun, account⟩ := run_accounts n hl hr ho
  rwa [h.unique hrun]

/-- Settles O29: both ends are accounted for by the start's registers and the samples, which the runs share. -/
theorem interleavingDoesNotMatter : Obligations.InterleavingDoesNotMatter := by
  intro p b₁ b₂ t₁ t₂ n₁ n₂ heng hl hr₁ hr₂ ho₁ ho₂ hs run₁ run₂
  have account₁ := run₁.accounts hl hr₁ ho₁
  have account₂ := run₂.accounts (heng ▸ hl) hr₂ ho₂
  rw [← heng] at account₂
  refine ⟨?_, PerChannel.ext_get fun c => ?_, PerChannel.ext_get fun c => ?_⟩
  · rw [account₁.pos, account₂.pos, hs, hs]
  · rw [account₁.prev, account₂.prev, hs]
  · rw [account₁.diag, account₂.diag, hs]

/-- SET_ZERO on an Active engine (43_host_ops.md R165). -/
theorem bodyAfter_setZero_eng {b : Body p} (h : b.eng.life = .active) :
    (bodyAfter .setZero b).eng = { b.eng with pos := 0 } := by
  rw [bodyAfter, Body.whenActive_active h, Body.respond_eng, Body.zeroPosition_eng]

/-- Settles O37: the account of the run starts from POS 0 and the PREV that SET_ZERO kept. -/
theorem stepsAfterSetZeroCountFromZero : Obligations.StepsAfterSetZeroCountFromZero := by
  intro p b hl
  have heng := bodyAfter_setZero_eng hl
  refine ⟨bodyAfter .setZero b, exec_eq _ b, fun n hr ho => ?_⟩
  obtain ⟨t, hrun, account⟩ := run_accounts n (by rw [heng]; exact hl) hr ho
  exact ⟨t, hrun, by simpa [heng] using account.pos⟩

/-! ### Repeated host operations (20_memory.md R56) -/

/-- The operation done twice leaves the registers and the response of the operation done once. -/
def RepeatsFrom (f : Body p → Body p) (b : Body p) : Prop :=
  (f (f b)).eng = (f b).eng ∧ (f (f b)).out.response = (f b).out.response

/-- An operation that needs an Active engine repeats if its active part keeps LIFE and repeats: the error repeats anyway. -/
theorem repeatsFrom_whenActive {f : Body p → Body p} {b : Body p} (hlife : (f b).eng.life = b.eng.life)
    (hf : RepeatsFrom f b) : RepeatsFrom (Body.whenActive f) b := by
  cases hl : b.eng.life with
  | active => simpa [RepeatsFrom, Body.whenActive_active, hl, hlife] using hf
  | unconstructed => simp [RepeatsFrom, Body.whenActive_unconstructed, hl]

/-- A query's value is read off registers that the query keeps. -/
theorem repeatsFrom_query (w : TxWord) (value : Engine p → BitVec p.rdataWidth) (b : Body p) :
    RepeatsFrom (Body.whenActive fun b => b.answer w (value b.eng)) b :=
  repeatsFrom_whenActive (by simp) (by simp [RepeatsFrom])

theorem repeatsFrom_setZero (b : Body p) : RepeatsFrom (bodyAfter .setZero) b :=
  repeatsFrom_whenActive (f := fun b => b.zeroPosition.respond .ok 0) (by simp) (by simp [RepeatsFrom])

/-- DESTROY answers OK from every state (44_lifecycle.md R194, R195). -/
theorem Body.destroy_response (b : Body p) : b.destroy.out.response = some ⟨.ok, 0⟩ := by
  cases hl : b.eng.life with
  | active => rw [Body.destroy_active hl, Body.respond_out]
  | unconstructed => rw [Body.destroy_unconstructed hl, Body.respond_out]

theorem repeatsFrom_destroy (b : Body p) : RepeatsFrom Body.destroy b := by
  refine ⟨?_, by rw [Body.destroy_response, Body.destroy_response]⟩
  rw [Body.destroy_unconstructed b.destroy_life, Body.respond_eng]

theorem repeatsFrom_bodyAfter {i : Instr} (hi : isQuery i = true ∨ i = .setZero ∨ i = .destroy) (b : Body p) :
    RepeatsFrom (bodyAfter i) b := by
  cases i with
  | getPosition => exact repeatsFrom_query 0x00 positionData b
  | getDirection => exact repeatsFrom_query 0x01 directionData b
  | getPeriod => exact repeatsFrom_query 0x02 periodData b
  | getDiagnostics => exact repeatsFrom_query 0x03 diagnosticsData b
  | setZero => exact repeatsFrom_setZero b
  | destroy => exact repeatsFrom_destroy b
  | construct => simp [isQuery] at hi
  | edgeA => simp [isQuery] at hi
  | edgeB => simp [isQuery] at hi

theorem Body.construct_active {b : Body p} (h : b.eng.life = .active) (pinA pinB : BitVec p.pinIdWidth) :
    b.construct pinA pinB = b.raise .errState := by
  simp [Body.construct, h]

theorem Body.status_of_raise {b : Body p} {e : Status} {r : Response p} (h : (b.raise e).out.response = some r) :
    r.status = e := by
  simp only [Body.raise_out, Option.some_inj] at h
  rw [← h]

/-- Of CONSTRUCT's cases only the one that makes the engine Active answers OK (44_lifecycle.md R190 to R193). -/
theorem Body.construct_life_of_ok {b : Body p} {pinA pinB : BitVec p.pinIdWidth} {r : Response p}
    (hr : (b.construct pinA pinB).out.response = some r) (hok : r.status = .ok) :
    (b.construct pinA pinB).eng.life = .active := by
  cases b.construct_cases pinA pinB with
  | succeeds _ _ _ _ eq => rw [eq]; rfl
  | whileActive _ eq => simp [Body.status_of_raise (eq ▸ hr)] at hok
  | equalPins _ _ eq => simp [Body.status_of_raise (eq ▸ hr)] at hok
  | deniedA _ _ _ eq => simp [Body.status_of_raise (eq ▸ hr)] at hok
  | deniedB _ _ _ _ eq => simp [Body.status_of_raise (eq ▸ hr)] at hok

/-- Settles O40: by the operations' own repetition, and a CONSTRUCT that answers OK leaves the engine Active. -/
theorem repetitionOfHostOperations : Obligations.RepetitionOfHostOperations := by
  intro p b t
  refine ⟨fun i hi ht => ?_, fun i r hi ht hr hok => ?_⟩
  · obtain rfl := exec_next ht
    exact ⟨_, exec_eq i _, repeatsFrom_bodyAfter hi b⟩
  · obtain rfl := exec_next ht
    refine ⟨_, exec_eq i _, ?_⟩
    cases i with
    | construct pinA pinB =>
      have hl := Body.construct_life_of_ok hr hok
      rw [bodyAfter, Body.construct_active (b := bodyAfter (.construct pinA pinB) b) hl]
      exact ⟨rfl, rfl⟩
    | _ => simp [isConstruct] at hi

end Sys2Proof.Machine
end

section
/-! PROOFS. 30_encoding.md: the fields of a word, the decoder as the opcode map, and decoder and encoder as each other's inverse
(R71 to R85). -/

namespace Sys2Proof.Machine

variable {p : Params}

/-! ### The parts of a word (30_encoding.md R71 to R74) -/

/-- A word is its class and its function. -/
theorem eq_append_iff_fields (w : TxWord) (cls : BitVec 2) (fn : BitVec 6) :
    w = cls ++ fn ↔ classField w = cls ∧ fnField w = fn := by
  have hw : classField w ++ fnField w = w := by revert w; decide
  constructor
  · rintro rfl
    exact ⟨BitVec.extractLsb'_append_eq_left, BitVec.extractLsb'_append_eq_right⟩
  · rintro ⟨rfl, rfl⟩
    exact hw.symm

/-- The six high bits of an edge word are its class, the reserved field and the channel bit. -/
theorem edge_high_bits_iff (w : TxWord) (ch : Bool) :
    w.extractLsb' 2 6 = (if ch then 0b100001 else 0b100000) ↔ classField w = 2 ∧ rsvField w = 0 ∧ chField w = ch := by
  revert w; cases ch <;> decide

/-- The word `base + 2*la + lb` (R85) has its level bits in the places R74 gives them. -/
theorem eq_edgeWord_iff (w : TxWord) (la lb : Bool) :
    (w = edgeWord 0x80 la lb ↔ w.extractLsb' 2 6 = 0b100000 ∧ laField w = la ∧ lbField w = lb) ∧
    (w = edgeWord 0x84 la lb ↔ w.extractLsb' 2 6 = 0b100001 ∧ laField w = la ∧ lbField w = lb) := by
  revert w; cases la <;> cases lb <;> decide

theorem pinAField_eq_mod (wdata : BitVec p.wdataWidth) : pinAField p wdata = wdata.toNat % 2 ^ p.pinIdWidth := by
  simp [pinAField]

theorem pinBField_eq_div (wdata : BitVec p.wdataWidth) : pinBField p wdata = wdata.toNat / 2 ^ p.pinIdWidth := by
  have h : wdata.toNat / 2 ^ p.pinIdWidth < 2 ^ p.pinIdWidth := by
    rw [Nat.div_lt_iff_lt_mul (by positivity), ← pow_add, ← two_mul]
    exact wdata.isLt
  simp [pinBField, Nat.shiftRight_eq_div_pow, Nat.mod_eq_of_lt h]

/-! ### What each format decodes to (30_encoding.md R72 to R74, R81) -/

theorem decodeQuery_ok_iff (w : TxWord) (i : Instr) :
    decodeQuery w = .ok i ↔
      (fnField w = 0 ∧ i = .getPosition) ∨ (fnField w = 1 ∧ i = .getDirection) ∨ (fnField w = 2 ∧ i = .getPeriod) ∨
      (fnField w = 3 ∧ i = .getDiagnostics) := by
  unfold decodeQuery
  split <;> simp_all [← BitVec.toNat_inj, eq_comm (b := i)]

theorem decodeControl_ok_iff (w : TxWord) (wdata : BitVec p.wdataWidth) (i : Instr) :
    decodeControl p w wdata = .ok i ↔
      (fnField w = 0 ∧ i = .setZero) ∨ (fnField w = 1 ∧ i = .construct (pinAField p wdata) (pinBField p wdata)) ∨
      (fnField w = 2 ∧ i = .destroy) := by
  unfold decodeControl
  split <;> simp_all [← BitVec.toNat_inj, eq_comm (b := i)]

theorem decodeHost_ok_iff (w : TxWord) (wdata : BitVec p.wdataWidth) (i : Instr) :
    decodeHost p w wdata = .ok i ↔
      (classField w = 0 ∧ decodeQuery w = .ok i) ∨ (classField w = 1 ∧ decodeControl p w wdata = .ok i) := by
  unfold decodeHost
  split <;> simp_all [← BitVec.toNat_inj]

theorem decodeEdge_ok_iff (ch : Bool) (edge : Bool → Bool → Instr) (w : TxWord) (i : Instr) :
    decodeEdge ch edge w = .ok i ↔
      w.extractLsb' 2 6 = (if ch then 0b100001 else 0b100000) ∧ i = edge (laField w) (lbField w) := by
  rw [edge_high_bits_iff]
  unfold decodeEdge
  split
  · split <;> simp_all [← BitVec.toNat_inj, eq_comm (b := i)]
  · simp_all [← BitVec.toNat_inj]
  · simp_all [← BitVec.toNat_inj]

/-- Settles O2: a host word is its class and function, an edge word its six high bits and two levels. -/
theorem decoderIsTheOpcodeMap : Obligations.DecoderIsTheOpcodeMap := by
  intro p port w wdata i
  cases port with
  | edgeA => simpa [decode, laField, lbField] using decodeEdge_ok_iff false .edgeA w i
  | edgeB => simpa [decode, laField, lbField] using decodeEdge_ok_iff true .edgeB w i
  | host =>
    have word := eq_append_iff_fields w
    simp only [decode, decodeHost_ok_iff, decodeQuery_ok_iff, decodeControl_ok_iff, pinAField_eq_mod, pinBField_eq_div,
      show w = 0x00 ↔ _ from word 0 0, show w = 0x01 ↔ _ from word 0 1, show w = 0x02 ↔ _ from word 0 2,
      show w = 0x03 ↔ _ from word 0 3, show w = 0x40 ↔ _ from word 1 0, show w = 0x41 ↔ _ from word 1 1,
      show w = 0x42 ↔ _ from word 1 2]
    simp [and_assoc, or_assoc, and_or_left]

/-! ### CONSTRUCT's write data (30_encoding.md R77, R84, R85) -/

/-- Two pins that fit their fields stand in the write data as its two halves. -/
theorem encodeWdata_construct_toNat {pinA pinB : Nat} (hA : pinA < 2 ^ p.pinIdWidth) (hB : pinB < 2 ^ p.pinIdWidth) :
    (encodeWdata p (.construct pinA pinB)).toNat = pinB * 2 ^ p.pinIdWidth + pinA := by
  have h : pinB * 2 ^ p.pinIdWidth + pinA < 2 ^ (2 * p.pinIdWidth) := by
    rw [two_mul, pow_add]
    calc pinB * 2 ^ p.pinIdWidth + pinA < (pinB + 1) * 2 ^ p.pinIdWidth := by rw [Nat.succ_mul]; omega
      _ ≤ 2 ^ p.pinIdWidth * 2 ^ p.pinIdWidth := Nat.mul_le_mul_right _ hB
  rw [encodeWdata, BitVec.toNat_ofNat, Nat.mod_eq_of_lt h]

theorem wellFormed_construct_iff (pinA pinB : Nat) :
    (Instr.construct pinA pinB).wellFormed p = true ↔ pinA < 2 ^ p.pinIdWidth ∧ pinB < 2 ^ p.pinIdWidth := by
  simp [Instr.wellFormed]

/-- The two halves of any write data fit their fields. -/
theorem wellFormed_construct_fields (wdata : BitVec p.wdataWidth) :
    (Instr.construct (pinAField p wdata) (pinBField p wdata)).wellFormed p = true :=
  (wellFormed_construct_iff _ _).2 ⟨BitVec.isLt _, BitVec.isLt _⟩

theorem encodeWdata_fields (wdata : BitVec p.wdataWidth) :
    encodeWdata p (.construct (pinAField p wdata) (pinBField p wdata)) = wdata := by
  simp [encodeWdata, pinAField_eq_mod, pinBField_eq_div, Nat.div_add_mod']

theorem fields_encodeWdata {pinA pinB : Nat} (hA : pinA < 2 ^ p.pinIdWidth) (hB : pinB < 2 ^ p.pinIdWidth) :
    pinAField p (encodeWdata p (.construct pinA pinB)) = pinA ∧
    pinBField p (encodeWdata p (.construct pinA pinB)) = pinB := by
  rw [pinAField_eq_mod, pinBField_eq_div, encodeWdata_construct_toNat hA hB]
  refine ⟨Nat.mul_add_mod_of_lt hA, ?_⟩
  rw [mul_comm, Nat.mul_add_div (by positivity), Nat.div_eq_of_lt hA, add_zero]

theorem decode_construct (wdata : BitVec p.wdataWidth) :
    decode p .host 0x41 wdata = .ok (.construct (pinAField p wdata) (pinBField p wdata)) := rfl

/-- Settles O3: the edges by their fields, CONSTRUCT by the halves of its write data, each other word by its own constant. -/
theorem decodeEncodeRoundTrip : Obligations.DecodeEncodeRoundTrip := by
  intro p i hi
  cases i with
  | construct pinA pinB =>
    obtain ⟨hA, hB⟩ := (wellFormed_construct_iff pinA pinB).1 hi
    obtain ⟨hfA, hfB⟩ := fields_encodeWdata hA hB
    simp only [encode, portOf, encodeWord, decode_construct, hfA, hfB]
  | edgeA la lb =>
    obtain ⟨hhigh, hla, hlb⟩ := (eq_edgeWord_iff _ la lb).1.1 rfl
    exact (decodeEdge_ok_iff false .edgeA _ _).2 ⟨hhigh, by simp only [encode, encodeWord, hla, hlb]⟩
  | edgeB la lb =>
    obtain ⟨hhigh, hla, hlb⟩ := (eq_edgeWord_iff _ la lb).2.1 rfl
    exact (decodeEdge_ok_iff true .edgeB _ _).2 ⟨hhigh, by simp only [encode, encodeWord, hla, hlb]⟩
  | _ => exact (decoderIsTheOpcodeMap ..).2 (by simp [encode, portOf, encodeWord])

/-- Settles O4: the opcode map names one word for each instruction, and the halves of the write data make it up again. -/
theorem decodedWordIsItsEncoding : Obligations.DecodedWordIsItsEncoding := by
  intro p port w wdata i h
  rw [decoderIsTheOpcodeMap, ← pinAField_eq_mod, ← pinBField_eq_div] at h
  rcases h with ⟨rfl, hword⟩ | ⟨rfl, hhigh, rfl⟩ | ⟨rfl, hhigh, rfl⟩
  · rcases hword with ⟨rfl, rfl⟩ | ⟨rfl, rfl⟩ | ⟨rfl, rfl⟩ | ⟨rfl, rfl⟩ | ⟨rfl, rfl⟩ | ⟨rfl, rfl⟩ | ⟨rfl, rfl⟩
    on_goal 6 => exact ⟨wellFormed_construct_fields wdata, rfl, rfl, fun _ => (encodeWdata_fields wdata).symm⟩
    all_goals exact ⟨rfl, rfl, rfl, nofun⟩
  · exact ⟨rfl, rfl, (eq_edgeWord_iff w _ _).1.2 ⟨hhigh, rfl, rfl⟩, nofun⟩
  · exact ⟨rfl, rfl, (eq_edgeWord_iff w _ _).2.2 ⟨hhigh, rfl, rfl⟩, nofun⟩

/-- Settles O1: each word evaluates through its format. -/
theorem wordsOfTheMapDecode : Obligations.WordsOfTheMapDecode :=
  fun _ _ => ⟨rfl, rfl, rfl, rfl, rfl, rfl, rfl, rfl, rfl, rfl, rfl, rfl, rfl, rfl, rfl⟩

/-- Settles O5: both kinds of port look at the class first. -/
theorem reservedClassIsIllegal : Obligations.ReservedClassIsIllegal := by
  intro p port w wdata (hw : classField w = 0b11)
  cases port with
  | host => exact ⟨.reservedClass, by simp [decode, decodeHost, hw]⟩
  | edgeA => exact ⟨.reservedClass, by simp [decode, decodeEdge, hw]⟩
  | edgeB => exact ⟨.reservedClass, by simp [decode, decodeEdge, hw]⟩

/-- A control word other than function 1 does not read the write data (30_encoding.md R77). -/
theorem decodeControl_wdata {w : TxWord} (h : fnField w ≠ 1) (wdata wdata' : BitVec p.wdataWidth) :
    decodeControl p w wdata = decodeControl p w wdata' := by
  unfold decodeControl
  split
  case h_2 hf => exact absurd (BitVec.eq_of_toNat_eq hf) h
  all_goals rfl

/-- Settles O6: only format C sees the write data, and there only function 1, which with class 1 is word 0x41. -/
theorem writeDataIsReadByConstructOnly : Obligations.WriteDataIsReadByConstructOnly := by
  refine fun p port w wdata wdata' => ⟨decode_construct wdata, fun hw => ?_⟩
  cases port with
  | edgeA => rfl
  | edgeB => rfl
  | host =>
    simp only [decode, decodeHost]
    split
    case h_2 hc =>
      exact decodeControl_wdata (fun hf => hw ((eq_append_iff_fields w 1 1).2 ⟨BitVec.eq_of_toNat_eq hc, hf⟩)) _ _
    all_goals rfl

end Sys2Proof.Machine
end

section
/-! PROOFS. 30_encoding.md: which steps have a response and what it holds (R78), and the answer of GET_PERIOD (R79). -/

namespace Sys2Proof.Machine

variable {p : Params}

/-! ### What an instruction answers (30_encoding.md R78) -/

/-- There is a response, with rdata 0 unless it is OK. -/
def Outputs.Answered (o : Outputs p) : Prop := ∃ r, o.response = some r ∧ (r.status ≠ .ok → r.rdata = 0)

theorem Outputs.Answered.of_ok {o : Outputs p} {v : BitVec p.rdataWidth} (h : o.response = some ⟨.ok, v⟩) : o.Answered :=
  ⟨_, h, fun hok => absurd rfl hok⟩

theorem Body.raise_answered (e : Status) (b : Body p) : (b.raise e).out.Answered :=
  ⟨⟨e, 0⟩, rfl, fun _ => rfl⟩

theorem Body.whenActive_answered {f : Body p → Body p} {b : Body p} {v : BitVec p.rdataWidth}
    (h : (f b).out.response = some ⟨.ok, v⟩) : (b.whenActive f).out.Answered := by
  cases hl : b.eng.life with
  | active => exact .of_ok (by rw [Body.whenActive_active hl, h])
  | unconstructed =>
    rw [Body.whenActive_unconstructed hl]
    exact Body.raise_answered .errState b

theorem Body.construct_answered (pinA pinB : BitVec p.pinIdWidth) (b : Body p) :
    (b.construct pinA pinB).out.Answered := by
  cases b.construct_cases pinA pinB with
  | succeeds _ _ _ _ eq => exact .of_ok (by rw [eq, Body.respond_out])
  | whileActive _ eq => exact eq ▸ Body.raise_answered .errState _
  | equalPins _ _ eq => exact eq ▸ Body.raise_answered .hwUnavailable _
  | deniedA _ _ _ eq => exact eq ▸ Body.raise_answered .hwUnavailable _
  | deniedB _ _ _ _ eq => exact eq ▸ Body.raise_answered .hwUnavailable _

/-- Every host instruction answers. -/
theorem bodyAfter_answered {i : Instr} (hi : portOf i = .host) (b : Body p) : (bodyAfter i b).out.Answered := by
  cases i with
  | getPosition => exact Body.whenActive_answered (by rw [Body.answer_out])
  | getDirection => exact Body.whenActive_answered (by rw [Body.answer_out])
  | getPeriod => exact Body.whenActive_answered (by rw [Body.answer_out])
  | getDiagnostics => exact Body.whenActive_answered (by rw [Body.answer_out])
  | setZero => exact Body.whenActive_answered (by rw [Body.respond_out])
  | construct pinA pinB => exact b.construct_answered _ _
  | destroy => exact .of_ok b.destroy_response
  | edgeA => simp [portOf] at hi
  | edgeB => simp [portOf] at hi

/-- An edge puts nothing out. -/
theorem bodyAfter_out_of_edge {i : Instr} (hi : portOf i ≠ .host) (b : Body p) : (bodyAfter i b).out = b.out := by
  cases i with
  | edgeA => rfl
  | edgeB => rfl
  | _ => simp [portOf] at hi

/-- What a step answers: something exactly when it accepted a host word. -/
inductive AnswerCase (o : Outputs p) : Prop where
  | silent (accepted : o.accepted ≠ some .host) (response : o.response = none)
  | answered (accepted : o.accepted = some .host) (answered : o.Answered)

theorem illegalWord_answerCase {b : Body p} {port : Port} (ha : b.out.accepted = some port) (hr : b.out.response = none) :
    AnswerCase (b.illegalWord port).out := by
  cases port with
  | host => exact .answered ha (b.raise_answered .illegal)
  | edgeA => exact .silent (by simp [Body.illegalWord, ha]) hr
  | edgeB => exact .silent (by simp [Body.illegalWord, ha]) hr

theorem bodyAfter_answerCase {b : Body p} {i : Instr} (ha : b.out.accepted = some (portOf i)) (hr : b.out.response = none) :
    AnswerCase (bodyAfter i b).out := by
  by_cases hi : portOf i = .host
  · exact .answered (by rw [bodyAfter_accepted, ha, hi]) (bodyAfter_answered hi b)
  · exact .silent (by simp [ha, hi]) (by rw [bodyAfter_out_of_edge hi, hr])

theorem stepBody_answerCase (b : Body p) : AnswerCase (stepBody b).out := by
  cases fetch_cases b with
  | noCycle _ eq => exact .silent (by simp [stepBody, eq, Outputs.silent]) (by simp [stepBody, eq, Outputs.silent])
  | reset c rest cycles rst =>
    have h := stepBody_of_rst cycles rst
    exact .silent (by simp [h, Outputs.silent]) (by simp [h, Outputs.silent])
  | nothing _ _ _ _ _ eq => exact .silent (by simp [stepBody, eq, Outputs.silent]) (by simp [stepBody, eq, Outputs.silent])
  | transaction c rest _ _ port _ w d left _ eq =>
    cases hd : decode p port w d with
    | error e =>
      simp only [stepBody, eq, hd]
      exact illegalWord_answerCase rfl rfl
    | ok i =>
      obtain ⟨-, rfl, -⟩ := decodedWordIsItsEncoding p port w d i hd
      simp only [stepBody, eq, hd]
      exact bodyAfter_answerCase rfl rfl

/-! ### The answer as a vector and GET_PERIOD's rdata (30_encoding.md R78, R79) -/

/-- The status code stands above rdata. -/
theorem Response.bits_toNat (r : Response p) : r.bits.toNat = r.status.code.toNat * 2 ^ p.rdataWidth + r.rdata.toNat := by
  rw [Response.bits, BitVec.toNat_append, Nat.shiftLeft_eq, mul_two_pow_or_eq_add r.rdata.isLt]

/-- Settles O14: a host instruction, like an illegal host word, answers; no other step does. -/
theorem exactlyHostTransactionsRespond : Obligations.ExactlyHostTransactionsRespond := by
  intro p b t ht
  obtain rfl := step_next ht
  refine ⟨?_, fun r hr => ⟨?_, r.bits_toNat⟩, rfl, rfl, rfl, rfl⟩
  · cases stepBody_answerCase b with
    | silent accepted response => simp [accepted, response]
    | answered accepted answered =>
      obtain ⟨r, response, -⟩ := answered
      simp [accepted, response]
  · cases stepBody_answerCase b with
    | silent _ response => simp [response] at hr
    | answered _ answered =>
      obtain ⟨r', response, zero⟩ := answered
      obtain rfl : r' = r := by simpa [response] using hr
      exact zero

/-- Settles O34: the answer is PERIOD with its valid bit above it, or ERR_STATE while Unconstructed. -/
theorem getPeriodAnswers : Obligations.GetPeriodAnswers := by
  intro p b
  refine ⟨fun _ => rfl, fun hl => ⟨periodData b.eng, periodData_toNat b.eng, ?_⟩, fun hl => ?_⟩
  · rw [exec_eq, bodyAfter, Body.whenActive_active hl, Body.answer_eq]
  · rw [exec_eq, bodyAfter, Body.whenActive_unconstructed hl]
    rfl

end Sys2Proof.Machine
end

section
/-! PROOFS. 30_encoding.md R85: the words of its table in numbers; the assembler reads the line of an
instruction back. -/

namespace Sys2Proof

/-! ### The text of a line -/

/-- The operands of an instruction as numbers. -/
def operandPair : Instr → Option (Nat × Nat)
  | .construct pinA pinB => some (pinA, pinB)
  | .edgeA la lb | .edgeB la lb => some (la.toNat, lb.toNat)
  | .getPosition | .getDirection | .getPeriod | .getDiagnostics | .setZero | .destroy => none

/-- Operands as printed, with `blank` before each. -/
def pairChars (blank : List Char) : Option (Nat × Nat) → List Char
  | none => []
  | some (x, y) => blank ++ Nat.toDigits 10 x ++ ',' :: (blank ++ Nat.toDigits 10 y)

/-- The `@t` as printed, with `blank` before it. -/
def timeChars (blank : List Char) : Option Nat → List Char
  | none => []
  | some t => blank ++ '@' :: Nat.toDigits 10 t

theorem toList_levelText (l : Bool) : (levelText l).toList = Nat.toDigits 10 l.toNat := by
  cases l <;> decide

theorem toList_operandText (i : Instr) : (operandText i).toList = pairChars [' '] (operandPair i) := by
  cases i <;> simp [operandText, operandPair, pairChars, toList_levelText]

theorem toList_listingLine (i : Instr) (now : Option Nat) :
    (listingLine i now).toList = (mnemonicText i).toList ++ (pairChars [' '] (operandPair i) ++ timeChars [' '] now) := by
  cases now <;> simp [listingLine, assemblyLine, timeChars, toList_operandText]

/-! ### What the assembler's cuts leave of it -/

theorem Plain.filter {cs : List Char} (h : Plain cs) : cs.filter (· ≠ ' ') = cs :=
  List.filter_eq_self.2 fun c hc => by simpa using (h c hc).1

/-- Without its blanks a printed text is the packed one. -/
theorem filter_pairChars (o : Option (Nat × Nat)) : (pairChars [' '] o).filter (· ≠ ' ') = pairChars [] o := by
  match o with
  | none => rfl
  | some (x, y) => simpa [pairChars] using congrArg₂ (· ++ ',' :: ·) (toDigits_plain x).filter (toDigits_plain y).filter

theorem filter_timeChars (now : Option Nat) : (timeChars [' '] now).filter (· ≠ ' ') = timeChars [] now := by
  match now with
  | none => rfl
  | some t => simpa [timeChars] using (toDigits_plain t).filter

theorem pairChars_ne {o : Option (Nat × Nat)} {c : Char} (hc : c ∈ pairChars [' '] o) : c ≠ '@' ∧ c ≠ ';' := by
  match o with
  | none => simp [pairChars] at hc
  | some (x, y) =>
    simp only [pairChars, List.mem_append, List.mem_cons, List.not_mem_nil, or_false] at hc
    rcases hc with (rfl | h) | rfl | rfl | h
    · decide
    · exact (toDigits_plain x c h).2.2
    · decide
    · decide
    · exact (toDigits_plain y c h).2.2

theorem timeChars_ne {now : Option Nat} {c : Char} (hc : c ∈ timeChars [' '] now) : c ≠ ';' := by
  match now with
  | none => simp [timeChars] at hc
  | some t =>
    simp only [timeChars, List.mem_append, List.mem_cons, List.not_mem_nil, or_false] at hc
    rcases hc with rfl | rfl | h
    · decide
    · decide
    · exact (toDigits_plain t c h).2.2.2

/-- A line holds no comment mark. -/
theorem listingLine_ne_semicolon (i : Instr) (now : Option Nat) {c : Char} (hc : c ∈ (listingLine i now).toList) :
    c ≠ ';' := by
  simp only [toList_listingLine, List.mem_append] at hc
  obtain h | h | h := hc
  · exact (mnemonicText_plain i c h).2.2.2
  · exact (pairChars_ne h).2
  · exact timeChars_ne h

theorem dropWhile_mnemonicText (i : Instr) (rest : List Char) :
    ((mnemonicText i).toList ++ rest).dropWhile (· = ' ') = (mnemonicText i).toList ++ rest := by
  cases i <;> simp [mnemonicText]

/-! ### What the assembler reads -/

/-- The operands of an instruction as the assembler lists them. -/
def operandNumbers (i : Instr) : List Nat := (operandPair i).elim [] fun (x, y) => [x, y]

theorem operandsOf_pairChars (i : Instr) : operandsOf (pairChars [] (operandPair i)) = some (operandNumbers i) := by
  unfold operandNumbers
  match operandPair i with
  | none => rfl
  | some (x, y) => exact operandsOf_pair (toDigits_plain x) (toDigits_plain y) (numberOf_toDigits x) (numberOf_toDigits y)

theorem levelOf_toNat (l : Bool) : levelOf l.toNat = some l := by
  cases l <;> rfl

theorem instrOf_mnemonicText (i : Instr) : instrOf (mnemonicText i).toList (operandNumbers i) = some i := by
  cases i <;> simp [instrOf, operandNumbers, operandPair, mnemonicText, levelOf_toNat]

theorem timeOf_timeChars_edge {i : Instr} (hi : Machine.isEdge i = true) (now : Option Nat) :
    timeOf i (timeChars [] now) = some now := by
  cases now with
  | none => rfl
  | some t => cases i <;> simp_all [Machine.isEdge, timeOf, timeChars, numberOf_toDigits]

theorem timeOf_timeChars_some {i : Instr} (hi : Machine.isEdge i = false) (t : Nat) :
    timeOf i (timeChars [] (some t)) = none := by
  cases i <;> simp_all [Machine.isEdge, timeOf, timeChars]

/-- A line, with or without one more blank, gives its instruction and what `timeOf` makes of its `@t`. -/
theorem assembleChars_listingLine (i : Instr) (now : Option Nat) {pad : List Char} (hpad : pad = [] ∨ pad = [' ']) :
    assembleChars ((listingLine i now).toList ++ pad) = (timeOf i (timeChars [] now)).map (i, ·) := by
  have hblank : pad.filter (· ≠ ' ') = [] := by rcases hpad with rfl | rfl <;> rfl
  rw [toList_listingLine, List.append_assoc,
    assembleChars_eq _ _ (pairChars [] (operandPair i)) (timeChars [] now) (mnemonicText_plain i)]
  · rw [operandsOf_pairChars]
    simp only [Option.bind_eq_bind, Option.bind_some, instrOf_mnemonicText]
    exact Option.map_eq_bind.symm
  · match operandPair i, now with
    | some _, _ => simp [pairChars]
    | none, some _ => simp [pairChars, timeChars]
    | none, none => rcases hpad with rfl | rfl <;> simp [pairChars, timeChars]
  · rw [List.filter_append, List.filter_append, filter_pairChars, filter_timeChars, hblank, List.append_nil]
  · intro c hc
    rw [← filter_pairChars] at hc
    exact (pairChars_ne (List.mem_of_mem_filter hc)).1
  · cases now <;> simp [timeChars]

/-- A line assembles with and without a comment after it. -/
theorem assemble_listingLine (i : Instr) (now : Option Nat) (comment : String) :
    assemble (listingLine i now) = (timeOf i (timeChars [] now)).map (i, ·) ∧
    assemble (listingLine i now ++ " ;" ++ comment) = (timeOf i (timeChars [] now)).map (i, ·) := by
  have hline : ∀ c ∈ (listingLine i now).toList, decide (c ≠ ';') = true := fun c hc => by
    simpa using listingLine_ne_semicolon i now hc
  have hdrop (pad : List Char) :
      ((listingLine i now).toList ++ pad).dropWhile (· = ' ') = (listingLine i now).toList ++ pad := by
    rw [toList_listingLine, List.append_assoc, dropWhile_mnemonicText]
  constructor
  · have h : (listingLine i now).toList.takeWhile (· ≠ ';') = (listingLine i now).toList ++ [] := by
      rw [List.append_nil, List.takeWhile_eq_self_iff.2 hline]
    rw [assemble, h, hdrop, assembleChars_listingLine i now (.inl rfl)]
  · have h : (listingLine i now ++ " ;" ++ comment).toList.takeWhile (· ≠ ';') = (listingLine i now).toList ++ [' '] := by
      rw [String.toList_append, String.toList_append, List.append_assoc, List.takeWhile_append_of_pos hline]
      simp
    rw [assemble, h, hdrop, assembleChars_listingLine i now (.inr rfl)]

theorem edgeWord_toNat {base : Nat} (h : base + 3 < 2 ^ 8) (la lb : Bool) :
    (edgeWord base la lb).toNat = base + 2 * la.toNat + lb.toNat := by
  have hla := la.toNat_le
  have hlb := lb.toNat_le
  rw [edgeWord, BitVec.toNat_ofNat, Nat.mod_eq_of_lt (by omega)]

/-- Settles O58: the words by their definitions, the lines by what `timeOf` makes of their `@t`. -/
theorem assemblerLinesNameTheirWords : Obligations.AssemblerLinesNameTheirWords := by
  refine ⟨fun la lb => ⟨edgeWord_toNat (by decide) la lb, edgeWord_toNat (by decide) la lb⟩, rfl, rfl, rfl, rfl, rfl, rfl,
    fun p pinA pinB => ⟨rfl, Machine.encodeWdata_construct_toNat⟩, fun i now comment hi => ?_, fun i t hi => ?_⟩
  · have htime : timeOf i (timeChars [] now) = some now := by
      rcases hi with rfl | hi
      · rfl
      · exact timeOf_timeChars_edge hi now
    simpa [htime] using assemble_listingLine i now comment
  · rw [(assemble_listingLine i (some t) "").1, timeOf_timeChars_some hi, Option.map_none]

end Sys2Proof
end

section
/-! PROOFS. 40_decode_table.md: every step completes (R106), the table and its cycle (R101 to R106), and what a run of edges leaves
in POS and DIR, as the list of its steps (R108). -/

namespace Sys2Proof.Machine

variable {p : Params}

/-- Settles O11: `step` always answers `stepBody`. -/
theorem everyStepCompletes : Obligations.EveryStepCompletes :=
  fun s => ⟨stepBody s.body, step_eq s.body⟩

/-! ### The table (40_decode_table.md R102 to R106) -/

/-- What is forward one way is reverse the other way (R105). -/
theorem stepRule_antisymm (prev cur : ChanState) : stepRule prev cur = -stepRule cur prev := by
  revert prev cur; decide

/-- Two steps along the cycle are a diagonal, which counts nothing (R101, R102). -/
theorem stepRule_forwardNext_twice (s : ChanState) : stepRule s (forwardNext (forwardNext s)) = 0 := by
  revert s; decide

/-- Settles O18: every pair's entry is the rule's, the rule is antisymmetric, and the table has 16 entries. -/
theorem decodeTableFollowsTheCycle : Obligations.DecodeTableFollowsTheCycle := by
  refine ⟨fun prev cur => ?_, fun prev cur => ?_, fun i hi => List.getElem?_eq_none hi⟩
  · obtain ⟨st, entry, value⟩ := DT_tableIndex prev cur
    rw [← tableIndex, entry, Option.map_some, value]
  · obtain ⟨st, entry, value⟩ := DT_tableIndex prev cur
    obtain ⟨st', entry', value'⟩ := DT_tableIndex cur prev
    rw [← tableIndex, ← tableIndex, entry, entry', Option.map_some, Option.map_some, value, value', stepRule_antisymm]

/-! ### The steps of a list of instructions -/

/-- The steps of the edges among `is`, in order, the first edge of each channel decoded against `prev`. -/
def edgeSteps (prev : PerChannel ChanState) : List Instr → List Int
  | [] => []
  | .edgeA la lb :: is => stepRule prev.a (channelState la lb) :: edgeSteps (prev.set .A (channelState la lb)) is
  | .edgeB la lb :: is => stepRule prev.b (channelState la lb) :: edgeSteps (prev.set .B (channelState la lb)) is
  | _ :: is => edgeSteps prev is

@[simp] theorem edgeSteps_nil (prev : PerChannel ChanState) : edgeSteps prev [] = [] := rfl

theorem edgeSteps_edgeInstr (prev : PerChannel ChanState) (c : Channel) (la lb : Bool) (is : List Instr) :
    edgeSteps prev (edgeInstr c la lb :: is) =
      stepRule (prev.get c) (channelState la lb) :: edgeSteps (prev.set c (channelState la lb)) is := by
  cases c <;> rfl

theorem edgeSteps_of_not_isEdge {i : Instr} (h : isEdge i = false) (prev : PerChannel ChanState) (is : List Instr) :
    edgeSteps prev (i :: is) = edgeSteps prev is := by
  cases i with
  | edgeA => simp [isEdge] at h
  | edgeB => simp [isEdge] at h
  | _ => rfl

theorem channelState_getLsbD (cur : ChanState) : channelState (cur.getLsbD 1) (cur.getLsbD 0) = cur := by
  revert cur; decide

@[simp] theorem edgeSteps_edgeSampling (prev : PerChannel ChanState) (c : Channel) (cur : ChanState) (is : List Instr) :
    edgeSteps prev (edgeSampling c cur :: is) = stepRule (prev.get c) cur :: edgeSteps (prev.set c cur) is := by
  rw [edgeSampling, edgeSteps_edgeInstr, channelState_getLsbD]

@[simp] theorem setsOrigin_edgeSampling (c : Channel) (cur : ChanState) : setsOrigin (edgeSampling c cur) = false := by
  cases c <;> rfl

/-- The two channels' path sums are the sum of the steps in the order they come in. -/
theorem pathSum_samples_eq_sum (prev : PerChannel ChanState) (is : List Instr) :
    pathSum prev.a (samples .A is) + pathSum prev.b (samples .B is) = (edgeSteps prev is).sum := by
  induction is generalizing prev with
  | nil => simp [samples, pathSum]
  | cons i is ih =>
    cases i with
    | edgeA la lb =>
      have rest := ih (prev.set .A (channelState la lb))
      simp only [PerChannel.set_A_a, PerChannel.set_A_b] at rest
      simp [samples, sampleOf, pathSum, edgeSteps, ← rest, Int.add_assoc]
    | edgeB la lb =>
      have rest := ih (prev.set .B (channelState la lb))
      simp only [PerChannel.set_B_a, PerChannel.set_B_b] at rest
      simp [samples, sampleOf, pathSum, edgeSteps, ← rest, Int.add_left_comm]
    | _ => exact ih prev

/-! ### DIR along a run (10_state.md R27) -/

/-- DIR after a step of a given value. -/
def dirAfterStep (d : Dir) (step : Int) : Dir :=
  if step = 1 then .clockwise else if step = -1 then .counterClockwise else d

theorem dirAfter_eq_dirAfterStep (d : Dir) (st : GrayStep) : dirAfter d st = dirAfterStep d st.toInt := dirAfter_eq d st

/-- DIR after the edges among `is`, from the registers `e` of an Active engine. -/
def Engine.dirOver (e : Engine p) (is : List Instr) : Dir := (edgeSteps e.prev is).foldl dirAfterStep e.dir

/-- DIR over an edge and what follows it is DIR over what follows, from the registers that the edge leaves. -/
theorem Engine.dirOver_edgeInstr {e : Engine p} {c : Channel} {la lb : Bool} {st : GrayStep}
    (h : st.toInt = stepRule (e.prev.get c) (channelState la lb)) (now : BitVec p.tsWidth) (is : List Instr) :
    e.dirOver (edgeInstr c la lb :: is) = (e.afterEdge c (channelState la lb) now st).dirOver is := by
  simp [Engine.dirOver, edgeSteps_edgeInstr, dirAfter_eq_dirAfterStep, h]

/-- The same of an instruction that sets no origin, edge or not (20_memory.md R60). -/
theorem bodyAfter_dirOver {i : Instr} {b : Body p} (hl : b.eng.life = .active) (hi : setsOrigin i = false) (is : List Instr) :
    b.eng.dirOver (i :: is) = (bodyAfter i b).eng.dirOver is := by
  cases instr_cases i b with
  | kept _ edge eng =>
    have noEdge : isEdge i = false := Bool.eq_false_iff.mpr fun h => by simpa [hl] using edge h
    rw [eng, Engine.dirOver, edgeSteps_of_not_isEdge noEdge, Engine.dirOver]
  | edge c la lb st _ step eng => rw [eng, Engine.dirOver_edgeInstr step (b.inp.now p)]
  | zeroed => simp [setsOrigin] at hi
  | rolledBack => simp [setsOrigin] at hi
  | constructed => simp [setsOrigin] at hi
  | destroyed => simp [setsOrigin] at hi

/-- The same of a step, which may be an idle one or an illegal word. -/
theorem stepBody_dirOver {b : Body p} (hl : b.eng.life = .active) (hr : NoReset 1 b)
    (ho : ∀ i ∈ nextInstr ⟨p, b⟩, setsOrigin i = false) (is : List Instr) :
    b.eng.dirOver ((nextInstr ⟨p, b⟩).toList ++ is) = (stepBody b).eng.dirOver is := by
  cases step_cases b with
  | reset c rest cycles rst => simp [NoReset, cycles, rst] at hr
  | noInstr next eng => simp [next, eng]
  | instr i b' next eng _ eq =>
    rw [eq, next, ← eng]
    exact bodyAfter_dirOver (eng ▸ hl) (ho i next) is

theorem Runs.dir {n : Nat} {b t : Body p} (h : Runs n ⟨p, b⟩ ⟨p, t⟩) (hl : b.eng.life = .active) (hr : NoReset n b)
    (ho : ∀ i ∈ trace n ⟨p, b⟩, setsOrigin i = false) : t.eng.dir = b.eng.dirOver (trace n ⟨p, b⟩) := by
  induction n generalizing b with
  | zero =>
    obtain rfl : t = b := by simpa using runs_zero.mp h
    rfl
  | succ n ih =>
    rw [trace_succ] at ho ⊢
    obtain ⟨hr1, hrn⟩ := hr.succ
    have first : ∀ i ∈ nextInstr ⟨p, b⟩, setsOrigin i = false := fun i hi => ho i (by simp [Option.mem_def.mp hi])
    rw [stepBody_dirOver hl hr1 first]
    exact ih (runs_succ.mp h) (stepBody_accounts hl hr1 first).life hrn fun i hi => ho i (List.mem_append_right _ hi)

/-- A run that sets no origin adds up its steps in POS, and its last step other than 0 decides DIR. -/
theorem run_steps {n : Nat} {b : Body p} {is : List Instr} {steps : List Int} (hl : b.eng.life = .active) (hr : NoReset n b)
    (htrace : trace n ⟨p, b⟩ = is) (ho : ∀ i ∈ is, setsOrigin i = false) (hsteps : edgeSteps b.eng.prev is = steps) :
    ∃ t : Body p, Runs n ⟨p, b⟩ ⟨p, t⟩ ∧ t.eng.pos = BitVec.ofInt _ (b.eng.pos.toInt + steps.sum) ∧
      t.eng.dir = steps.foldl dirAfterStep b.eng.dir := by
  subst htrace hsteps
  obtain ⟨t, hrun, account⟩ := run_accounts n hl hr ho
  refine ⟨t, hrun, ?_, hrun.dir hl hr ho⟩
  rw [account.pos, Int.add_assoc, pathSum_samples_eq_sum]

/-- The same step again leaves DIR where the first put it. -/
theorem dirAfterStep_idem (d : Dir) (step : Int) : dirAfterStep (dirAfterStep d step) step = dirAfterStep d step := by
  unfold dirAfterStep
  split_ifs <;> rfl

/-- A step that does not move DIR does not move it when repeated. -/
theorem foldl_dirAfterStep_replicate {d : Dir} {step : Int} (h : dirAfterStep d step = d) (n : Nat) :
    (List.replicate n step).foldl dirAfterStep d = d := by
  induction n with
  | zero => rfl
  | succ n ih => rw [List.replicate_succ, List.foldl_cons, h, ih]

/-! ### Steady forward rotation (40_decode_table.md R108) -/

/-- The channel whose edge is number `k` of the rotation. -/
def rotationChannel (k : Nat) : Channel := if k % 2 = 0 then .B else .A

theorem rotationChannel_succ_ne (k : Nat) : rotationChannel (k + 1) ≠ rotationChannel k := by
  rcases Nat.mod_two_eq_zero_or_one k with h | h <;> simp [rotationChannel, Nat.add_mod, h]

theorem rotationChannel_add_two (k : Nat) : rotationChannel (k + 2) = rotationChannel k := by simp [rotationChannel]

/-- Edge number `k` of the rotation. -/
def rotationEdge (k : Nat) : Instr := edgeSampling (rotationChannel k) (rotationState (k + 1))

theorem forwardRotation_eq (n : Nat) : forwardRotation n = (List.range n).map rotationEdge := rfl

/-- After the first edge every edge is two steps along the cycle from its own channel's last sample, so its step is 0. -/
theorem edgeSteps_rotationEdge (k n : Nat) {prev : PerChannel ChanState}
    (own : prev.get (rotationChannel (k + 1)) = rotationState k)
    (other : prev.get (rotationChannel k) = rotationState (k + 1)) :
    edgeSteps prev ((List.range' (k + 1) n).map rotationEdge) = List.replicate n 0 := by
  induction n generalizing k prev with
  | zero => rfl
  | succ n ih =>
    have diagonal : stepRule (rotationState k) (rotationState (k + 2)) = 0 := stepRule_forwardNext_twice _
    rw [List.range'_succ, List.map_cons, rotationEdge, edgeSteps_edgeSampling, own, diagonal, List.replicate_succ]
    refine congrArg (0 :: ·) (ih (k + 1) ?_ (by simp))
    rw [rotationChannel_add_two, PerChannel.get_set_other _ _ (rotationChannel_succ_ne k).symm, other]

/-- The first edge is B's successor of 00 and counts +1; no later one counts (42_edge_events.md R148). -/
theorem edgeSteps_forwardRotation (n : Nat) :
    edgeSteps ⟨0b00, 0b00⟩ (forwardRotation (n + 1)) = 1 :: List.replicate n 0 := by
  rw [forwardRotation_eq, List.range_eq_range', List.range'_succ, List.map_cons, rotationEdge, edgeSteps_edgeSampling]
  exact congrArg (1 :: ·) (edgeSteps_rotationEdge 0 n rfl rfl)

theorem setsOrigin_forwardRotation {n : Nat} {i : Instr} (hi : i ∈ forwardRotation n) : setsOrigin i = false := by
  obtain ⟨k, -, rfl⟩ := List.mem_map.mp (forwardRotation_eq n ▸ hi)
  exact setsOrigin_edgeSampling _ _

/-- Settles O30: the rotation's steps are one +1 and then only 0. -/
theorem steadyRotationCountsOnce : Obligations.SteadyRotationCountsOnce := by
  intro p b n k hl hprev hr hk htrace
  obtain ⟨m, rfl⟩ := Nat.exists_eq_add_of_le' hk
  have hsteps := edgeSteps_forwardRotation m
  rw [← hprev] at hsteps
  obtain ⟨t, hrun, pos, dir⟩ := run_steps hl hr htrace (fun _ => setsOrigin_forwardRotation) hsteps
  refine ⟨t, hrun, ?_, ?_⟩
  · simpa [BitVec.ofInt_add] using pos
  · rw [dir, List.foldl_cons]
    exact foldl_dirAfterStep_replicate rfl m

/-! ### Gray cycles on channel A alone (40_decode_table.md R101) -/

/-- `N` walks from 00 through three states back to 00 on channel A; V-W2 and V-W3 are two of them. -/
def walksA (s1 s2 s3 : ChanState) (N : Nat) : List Instr :=
  (List.replicate N [edgeSampling .A s1, edgeSampling .A s2, edgeSampling .A s3, edgeSampling .A 0b00]).flatten

theorem forwardCyclesA_eq (N : Nat) : forwardCyclesA N = walksA 0b01 0b11 0b10 N := rfl
theorem reverseCyclesA_eq (N : Nat) : reverseCyclesA N = walksA 0b10 0b11 0b01 N := rfl

theorem walksA_succ (s1 s2 s3 : ChanState) (N : Nat) :
    walksA s1 s2 s3 (N + 1) =
      edgeSampling .A s1 :: edgeSampling .A s2 :: edgeSampling .A s3 :: edgeSampling .A 0b00 :: walksA s1 s2 s3 N := by
  rw [walksA, List.replicate_succ, List.flatten_cons, walksA]
  rfl

theorem setsOrigin_walksA {s1 s2 s3 : ChanState} {N : Nat} {i : Instr} (hi : i ∈ walksA s1 s2 s3 N) :
    setsOrigin i = false := by
  obtain ⟨l, hl, hil⟩ := List.mem_flatten.mp hi
  rw [List.eq_of_mem_replicate hl] at hil
  simp only [List.mem_cons, List.not_mem_nil, or_false] at hil
  rcases hil with rfl | rfl | rfl | rfl <;> rfl

/-- A walk whose four steps are all `step` gives `step` four times, and ends where the next one starts. -/
theorem edgeSteps_walksA {s1 s2 s3 : ChanState} {step : Int}
    (hwalk : [stepRule 0b00 s1, stepRule s1 s2, stepRule s2 s3, stepRule s3 0b00] = List.replicate 4 step) (N : Nat)
    {prev : PerChannel ChanState} (hprev : prev.a = 0b00) :
    edgeSteps prev (walksA s1 s2 s3 N) = List.replicate (4 * N) step := by
  induction N generalizing prev with
  | zero => rfl
  | succ N ih =>
    simp only [List.replicate, List.cons.injEq] at hwalk
    obtain ⟨h1, h2, h3, h4, -⟩ := hwalk
    simp only [walksA_succ, edgeSteps_edgeSampling, PerChannel.get_A, PerChannel.set_A_a, hprev, h1, h2, h3, h4]
    rw [ih (PerChannel.set_A_a _ _)]
    rfl

/-- A run of `N` walks with four steps `step` each. -/
theorem run_walksA {n N : Nat} {b : Body p} {s1 s2 s3 : ChanState} {step : Int} (hl : b.eng.life = .active)
    (hprev : b.eng.prev.a = 0b00) (hr : NoReset n b) (hN : 1 ≤ N)
    (hwalk : [stepRule 0b00 s1, stepRule s1 s2, stepRule s2 s3, stepRule s3 0b00] = List.replicate 4 step)
    (htrace : trace n ⟨p, b⟩ = walksA s1 s2 s3 N) :
    ∃ t : Body p, Runs n ⟨p, b⟩ ⟨p, t⟩ ∧ t.eng.pos = BitVec.ofInt _ (b.eng.pos.toInt + 4 * N * step) ∧
      t.eng.dir = dirAfterStep b.eng.dir step := by
  obtain ⟨t, hrun, pos, dir⟩ := run_steps hl hr htrace (fun _ => setsOrigin_walksA) (edgeSteps_walksA hwalk N hprev)
  refine ⟨t, hrun, ?_, ?_⟩
  · simpa using pos
  · obtain ⟨m, hm⟩ := Nat.exists_eq_add_of_le' (show 1 ≤ 4 * N by omega)
    rw [dir, hm, List.replicate_succ, List.foldl_cons]
    exact foldl_dirAfterStep_replicate (dirAfterStep_idem _ _) m

/-- Settles O31: the forward walk's steps are all +1 and the reverse walk's all -1. -/
theorem singleChannelCyclesCountFourEach : Obligations.SingleChannelCyclesCountFourEach := by
  intro p b n N hl hprev hr hN
  constructor
  · intro htrace
    simpa [dirAfterStep] using run_walksA (step := 1) hl hprev hr hN (by decide) htrace
  · intro htrace
    simpa [dirAfterStep, Int.sub_eq_add_neg] using run_walksA (step := -1) hl hprev hr hN (by decide) htrace

end Sys2Proof.Machine
end

section
/-! PROOFS. 41_pulse_timer.md: the period that two edges publish (R123), and which steps change it (R127). -/

namespace Sys2Proof.Machine

variable {p : Params}

/-! ### The elapsed ticks (41_pulse_timer.md R123) -/

/-- Two time-input values differ, modulo 2^TS_WIDTH, by the ticks between them, whether or not NOW wrapped. -/
theorem toNat_ofNat_sub_ofNat {w T1 T2 : Nat} (h : T1 ≤ T2) :
    (BitVec.ofNat w T2 - BitVec.ofNat w T1).toNat = (T2 - T1) % 2 ^ w := by
  obtain ⟨d, rfl⟩ := Nat.exists_eq_add_of_le' h
  rw [BitVec.ofNat_add, BitVec.add_sub_cancel, BitVec.toNat_ofNat, Nat.add_sub_cancel]

/-- An edge on an Active engine is one call of the pulse timer, whatever its channel and step. -/
theorem bodyAfter_edgeInstr_timerEffect {b : Body p} (hl : b.eng.life = .active) (c : Channel) (la lb : Bool) :
    (bodyAfter (edgeInstr c la lb) b).eng.life = .active ∧
    TimerEffect (b.inp.now p) b.eng (bodyAfter (edgeInstr c la lb) b).eng := by
  rw [bodyAfter_edgeInstr, Engine.edge, hl]
  exact ⟨by simpa using hl, Engine.afterEdge_timerEffect ..⟩

/-- The same of the edge transaction. -/
theorem exec_edgeInstr_timerEffect {b : Body p} (hl : b.eng.life = .active) (c : Channel) (la lb : Bool) :
    ∃ t : Body p, exec (edgeInstr c la lb) ⟨p, b⟩ = .next ⟨p, t⟩ ∧ t.eng.life = .active ∧
      TimerEffect (b.inp.now p) b.eng t.eng :=
  ⟨_, exec_eq _ b, bodyAfter_edgeInstr_timerEffect hl c la lb⟩

/-- Settles O27: the first edge stamps T1, and the second publishes the ticks since the stamp. -/
theorem periodIsTheElapsedTicks : Obligations.PeriodIsTheElapsedTicks := by
  intro p b c1 c2 la1 lb1 la2 lb2 T2 hl hphase hT
  obtain ⟨m, run1, hl1, first, -⟩ := exec_edgeInstr_timerEffect hl c1 la1 lb1
  obtain ⟨phase1, stamp1, -, -⟩ := first hphase
  obtain ⟨t, run2, -, -, second⟩ :=
    exec_edgeInstr_timerEffect (b := { m with inp := { m.inp with tick := T2 } }) hl1 c2 la2 lb2
  obtain ⟨phase2, -, period2, valid2⟩ := second phase1
  refine ⟨m, t, run1, run2, valid2, ?_, phase2⟩
  rw [period2, stamp1]
  exact toNat_ofNat_sub_ofNat hT

/-! ### Which steps change the period (41_pulse_timer.md R127) -/

/-- PERIOD or PERIOD_VALID is not as before. -/
def PeriodChanges (e e' : Engine p) : Prop := e'.periodValid ≠ e.periodValid ∨ e'.period ≠ e.period

/-- Of the timer's calls only an even-numbered one changes the period, and it makes it valid (R121). -/
theorem TimerEffect.even_of_periodChanges {now : BitVec p.tsWidth} {e e' : Engine p} (h : TimerEffect now e e')
    (hc : PeriodChanges e e') : e.ptPhase = true ∧ e'.periodValid = true := by
  obtain ⟨odd, even⟩ := h
  cases hphase : e.ptPhase with
  | false =>
    obtain ⟨-, -, period, valid⟩ := odd hphase
    simp [PeriodChanges, period, valid] at hc
  | true =>
    obtain ⟨-, -, -, valid⟩ := even hphase
    exact ⟨rfl, valid⟩

/-- On an Active engine only an even-numbered edge and DESTROY change the period. -/
theorem bodyAfter_periodChanges {i : Instr} {b : Body p} (hl : b.eng.life = .active)
    (hc : PeriodChanges b.eng (bodyAfter i b).eng) :
    (isEdge i = true ∧ b.eng.ptPhase = true ∧ (bodyAfter i b).eng.periodValid = true) ∨ i = .destroy := by
  cases instr_cases i b with
  | kept _ _ eng => simp [PeriodChanges, eng] at hc
  | zeroed _ eng => simp [PeriodChanges, eng] at hc
  | edge c la lb =>
    have call := (bodyAfter_edgeInstr_timerEffect hl c la lb).right
    exact .inl ⟨by cases c <;> rfl, call.even_of_periodChanges hc⟩
  | rolledBack _ _ life => simp [hl] at life
  | constructed _ _ life => simp [hl] at life
  | destroyed => exact .inr rfl

/-- Settles O50: a step that changes the period is a reset cycle or runs one of the two instructions that do. -/
theorem periodStaysUntilTheNextPair : Obligations.PeriodStaysUntilTheNextPair := by
  intro p b t ht hl hc
  obtain rfl := step_next ht
  cases step_cases b with
  | reset c rest cycles rst => exact .inr (.inr ⟨c, by simp [cycles], rst⟩)
  | noInstr _ eng => simp [eng] at hc
  | instr i b' next eng _ eq =>
    rw [eq, ← eng] at hc
    rw [eq, next, ← eng]
    obtain ⟨edge, timer⟩ | rfl := bodyAfter_periodChanges (eng ▸ hl) hc
    · exact .inl ⟨⟨i, rfl, edge⟩, timer⟩
    · exact .inr (.inl rfl)

end Sys2Proof.Machine
end

section
/-! PROOFS. 42_edge_events.md: what an edge writes and leaves (R140), POS and DIAG at the ends of their ranges (R150, R151), edges
that are dropped (R144) or never fail (R152), and the isolation of the channels (R147). -/

namespace Sys2Proof.Machine

variable {p : Params}

/-! ### The whole effect of an edge (42_edge_events.md R140 to R142) -/

/-- Steps 4 to 7 with the step of the forward cycle, as one effect with its frame. -/
theorem edgeEffect_afterEdge {c : Channel} {cur : ChanState} {st : GrayStep} {b : Body p}
    (hst : st.toInt = stepRule (b.eng.prev.get c) cur) :
    EdgeEffect c cur b { b with eng := b.eng.afterEdge c cur (b.inp.now p) st } := by
  refine ⟨?pos, ?dir, ?prev, ?diag, Engine.afterEdge_timerEffect .., fun c' hc => ⟨?prev', ?diag'⟩, ?life, ?pin, rfl⟩
  case pos => rw [Engine.afterEdge_pos, hst]
  case dir => rw [Engine.afterEdge_dir, dirAfter_eq, hst]
  case prev' => rw [Engine.afterEdge_prev, PerChannel.get_set_other _ _ hc]
  case diag' => rw [Engine.afterEdge_diag, PerChannel.get_set_other _ _ hc]
  all_goals simp

/-- An edge of either channel on an Active engine has the whole effect and no other. -/
theorem exec_edgeInstr_edgeEffect {b : Body p} (hl : b.eng.life = .active) (c : Channel) (la lb : Bool) :
    ∃ t : Body p, exec (edgeInstr c la lb) ⟨p, b⟩ = .next ⟨p, t⟩ ∧ EdgeEffect c (channelState la lb) b t := by
  refine ⟨_, exec_eq _ b, ?_⟩
  rw [bodyAfter_edgeInstr, Engine.edge, hl]
  exact edgeEffect_afterEdge (grayStep_toInt _ _)

/-- An edge has no response and no record: the frame of its effect takes in the output. -/
theorem EdgeEffect.out_eq {c : Channel} {cur : ChanState} {b t : Body p} (h : EdgeEffect c cur b t) : t.out = b.out := by
  obtain ⟨-, -, -, -, -, -, -, -, frame⟩ := h
  rw [frame]

/-- Settles O19: the effect of an edge at channel A. -/
theorem edgeAOnActiveEngine : Obligations.EdgeAOnActiveEngine :=
  fun _ _ la lb hl => exec_edgeInstr_edgeEffect hl .A la lb

/-- Settles O20: the effect of an edge at channel B. -/
theorem edgeBOnActiveEngine : Obligations.EdgeBOnActiveEngine :=
  fun _ _ la lb hl => exec_edgeInstr_edgeEffect hl .B la lb

/-! ### Steps of zero (42_edge_events.md R145, R146) -/

/-- A diagonal sample and a repeated one step nothing (40_decode_table.md R102). -/
theorem stepRule_eq_zero {prev cur : ChanState} (h : prev ^^^ cur = 0b11 ∨ prev = cur) : stepRule prev cur = 0 := by
  revert prev cur; decide

/-- Settles O22: the effect of an edge whose step is zero. -/
theorem diagonalAndRepeatedEdgesStepNothing : Obligations.DiagonalAndRepeatedEdgesStepNothing := by
  intro p b c la lb hl hsample
  obtain ⟨t, run, effect⟩ := exec_edgeInstr_edgeEffect hl c la lb
  have out := effect.out_eq
  obtain ⟨pos, dir, prev, diag, timer, -⟩ := effect
  have step := stepRule_eq_zero hsample
  exact ⟨t, run, by simpa [step] using pos, by simpa [step] using dir, prev, diag, timer, out⟩

/-! ### The ends of the ranges (42_edge_events.md R150, R151) -/

/-- Adding -1, 0 or +1 in two's complement: the sum, but the other end of the range where the sum leaves it. -/
theorem toInt_ofInt_add_step {w : Nat} (hw : 0 < w) (x : BitVec w) {d : Int} (hd : d = -1 ∨ d = 0 ∨ d = 1) :
    (BitVec.ofInt w (x.toInt + d)).toInt =
      if d = 1 ∧ x.toInt = 2 ^ (w - 1) - 1 then - 2 ^ (w - 1)
      else if d = -1 ∧ x.toInt = - 2 ^ (w - 1) then 2 ^ (w - 1) - 1
      else x.toInt + d := by
  have lower := x.le_toInt
  have upper := x.toInt_lt
  have range : ((2 ^ w : Nat) : Int) = 2 * 2 ^ (w - 1) := by exact_mod_cast (mul_pow_sub_one hw.ne' 2).symm
  rw [BitVec.toInt_ofInt, Int.bmod_eq_iff (Nat.two_pow_pos w), range]
  split
  case isTrue h => exact ⟨by omega, by omega, -1, by omega⟩
  case isFalse =>
    split
    case isTrue h => exact ⟨by omega, by omega, 1, by omega⟩
    case isFalse => exact ⟨by omega, by omega, 0, by omega⟩

/-- Settles O23: the step is -1, 0 or +1, and POS adds it in two's complement. -/
theorem positionWraps : Obligations.PositionWraps := by
  intro p b c la lb hp hl
  obtain ⟨t, run, effect⟩ := exec_edgeInstr_edgeEffect hl c la lb
  have out := effect.out_eq
  obtain ⟨pos, -⟩ := effect
  have width : 0 < p.posWidth := Nat.lt_of_lt_of_le Nat.two_pos hp.left
  exact ⟨t, run, out, by rw [pos, toInt_ofInt_add_step width _ (stepRule_cases _ _)]⟩

/-- Adding 1 to an unsigned number of `w` bits: the sum, but 0 from the largest. -/
theorem toNat_add_one {w : Nat} (x : BitVec w) :
    (x + 1).toNat = if x.toNat = 2 ^ w - 1 then 0 else x.toNat + 1 := by
  have bound := x.isLt
  rw [BitVec.ofNat_eq_ofNat, BitVec.toNat_add, BitVec.toNat_ofNat, Nat.add_mod_mod]
  split
  case isTrue h => rw [show x.toNat + 1 = 2 ^ w by omega, Nat.mod_self]
  case isFalse h => exact Nat.mod_eq_of_lt (by omega)

/-- Settles O24: DIAG[c] adds 1 whatever the step. -/
theorem diagnosticCounterWraps : Obligations.DiagnosticCounterWraps := by
  intro p b c la lb hl
  obtain ⟨t, run, effect⟩ := exec_edgeInstr_edgeEffect hl c la lb
  have out := effect.out_eq
  obtain ⟨-, -, -, diag, -⟩ := effect
  exact ⟨t, run, out, by rw [diag, toNat_add_one]⟩

/-! ### Edges from every state (42_edge_events.md R144, R152) -/

/-- Settles O21: while Unconstructed the registers after an edge are those before it. -/
theorem edgeWhileUnconstructedIsDropped : Obligations.EdgeWhileUnconstructedIsDropped := by
  intro p b c la lb hl
  rw [exec_eq, bodyAfter_edgeInstr, Engine.edge, hl]

/-- Settles O25: `exec` always answers a next state, and an edge's differs in the registers alone. -/
theorem edgesNeverFail : Obligations.EdgesNeverFail :=
  fun _ b c la lb => ⟨_, exec_eq _ b, by rw [bodyAfter_edgeInstr]⟩

/-! ### Isolation of the channels (42_edge_events.md R147) -/

/-- Other values for the PREV and DIAG of one channel. -/
def Engine.setChannel (c : Channel) (v : ChanState) (d : BitVec p.diagWidth) (e : Engine p) : Engine p :=
  { e with prev := e.prev.set c v, diag := e.diag.set c d }

theorem PerChannel.set_comm {α : Type} {x : PerChannel α} {c c' : Channel} (h : c' ≠ c) (v v' : α) :
    (x.set c' v').set c v = (x.set c v).set c' v' :=
  match c, c', h with
  | .A, .B, _ | .B, .A, _ => rfl
  | .A, .A, h | .B, .B, h => absurd rfl h

section

variable {c c' : Channel} (h : c' ≠ c) (v : ChanState) (d : BitVec p.diagWidth) (e : Engine p)

theorem Engine.applyStep_setChannel (st : GrayStep) :
    (e.setChannel c v d).applyStep st = (e.applyStep st).setChannel c v d := by
  cases st <;> rfl

theorem recordEdge_setChannel (now : BitVec p.tsWidth) :
    (recordEdge now (e.setChannel c v d)).2 = (recordEdge now e).2.setChannel c v d := by
  cases hphase : e.ptPhase <;> simp [recordEdge, Engine.setChannel, hphase]

include h

theorem Engine.setPrev_setChannel (cur : ChanState) :
    (e.setChannel c' v d).setPrev c cur = (e.setPrev c cur).setChannel c' v d := by
  simp [Engine.setPrev, Engine.setChannel, PerChannel.set_comm h]

theorem Engine.countEdge_setChannel :
    (e.setChannel c' v d).countEdge c = (e.countEdge c).setChannel c' v d := by
  simp [Engine.countEdge, Engine.setChannel, PerChannel.set_comm h, PerChannel.get_set_other _ _ h.symm]

/-- Each of an edge's steps commutes with a write to the other channel's PREV and DIAG, and so does the step it decodes. -/
theorem Engine.edge_setChannel (cur : ChanState) (now : BitVec p.tsWidth) :
    (e.setChannel c' v d).edge c cur now = (e.edge c cur now).setChannel c' v d := by
  have life : (e.setChannel c' v d).life = e.life := rfl
  have prev : (e.setChannel c' v d).prev.get c = e.prev.get c := PerChannel.get_set_other _ _ h.symm
  cases hl : e.life with
  | unconstructed => simp [Engine.edge, life, hl]
  | active =>
    simp only [Engine.edge, life, hl, prev, Engine.afterEdge]
    rw [Engine.applyStep_setChannel, Engine.setPrev_setChannel h, recordEdge_setChannel, Engine.countEdge_setChannel h]

end

/-- An edge leads to the same state whatever the other channel's PREV and DIAG hold, with those values kept. -/
theorem exec_edgeInstr_setChannel {c c' : Channel} (h : c' ≠ c) {la lb : Bool} {b t : Body p}
    (run : exec (edgeInstr c la lb) ⟨p, b⟩ = .next ⟨p, t⟩) (v : ChanState) (d : BitVec p.diagWidth) :
    exec (edgeInstr c la lb) ⟨p, { b with eng := b.eng.setChannel c' v d }⟩ =
      .next ⟨p, { t with eng := t.eng.setChannel c' v d }⟩ := by
  obtain rfl := exec_next run
  rw [exec_eq, bodyAfter_edgeInstr, bodyAfter_edgeInstr, Engine.edge_setChannel h]

/-- Settles O26: the isolation of each channel's edge from the other channel. -/
theorem channelsAreIsolated : Obligations.ChannelsAreIsolated :=
  fun _ _ _ _ _ v d =>
    ⟨fun run => exec_edgeInstr_setChannel (c := .A) (c' := .B) nofun run v d,
     fun run => exec_edgeInstr_setChannel (c := .B) (c' := .A) nofun run v d⟩

end Sys2Proof.Machine
end

section
/-! PROOFS. 43_host_ops.md: an operation that needs an Active engine (R160), the answers of GET_POSITION and GET_DIAGNOSTICS
(R161, R164), SET_ZERO's one write (R165), and what every query leaves (R166). -/

namespace Sys2Proof.Machine

variable {p : Params}

/-! ### Operations that need an Active engine (43_host_ops.md R160) -/

section WhenActive

variable {i : Instr} {b : Body p} {f : Body p → Body p}

theorem exec_whenActive_active (hi : bodyAfter i b = b.whenActive f) (hl : b.eng.life = .active) :
    exec i ⟨p, b⟩ = .next ⟨p, f b⟩ := by
  rw [exec_eq, hi, Body.whenActive_active hl]

theorem exec_whenActive_unconstructed (hi : bodyAfter i b = b.whenActive f) (hl : b.eng.life = .unconstructed) :
    exec i ⟨p, b⟩ = .next ⟨p, { b with out := { b.out with response := some ⟨.errState, 0⟩ } }⟩ := by
  rw [exec_eq, hi, Body.whenActive_unconstructed hl]
  rfl

theorem exec_query_active {w : TxWord} {value : Engine p → BitVec p.rdataWidth}
    (hi : bodyAfter i b = b.whenActive fun b => b.answer w (value b.eng)) (hl : b.eng.life = .active) :
    exec i ⟨p, b⟩ = .next ⟨p, { b with out := { b.out with
      response := some ⟨.ok, value b.eng⟩
      emitted := b.out.emitted ++ (if p.obsSink = true then [.obs w (value b.eng)] else []) } }⟩ := by
  rw [exec_whenActive_active hi hl, Body.answer_eq]

end WhenActive

/-! ### The queries and SET_ZERO (43_host_ops.md R161, R164 to R166) -/

/-- Settles O32: the answer is POS zero-filled, or ERR_STATE while Unconstructed. -/
theorem getPositionAnswers : Obligations.GetPositionAnswers :=
  fun _ b => ⟨fun _ => rfl,
    fun hl => ⟨positionData b.eng, positionData_toNat b.eng, exec_query_active rfl hl⟩,
    exec_whenActive_unconstructed rfl⟩

/-- Settles O35: the answer is DIAG[B] above DIAG[A], or ERR_STATE while Unconstructed. -/
theorem getDiagnosticsAnswers : Obligations.GetDiagnosticsAnswers :=
  fun _ b => ⟨fun _ => rfl,
    fun hl => ⟨diagnosticsData b.eng, diagnosticsData_toNat b.eng, exec_query_active rfl hl⟩,
    exec_whenActive_unconstructed rfl⟩

theorem bodyAfter_setZero (b : Body p) : bodyAfter .setZero b = b.whenActive fun b => b.zeroPosition.respond .ok 0 := rfl

/-- Settles O36: while Active the operation is `zeroPosition` and an OK response; Unconstructed it is an error. -/
theorem setZeroWritesPositionOnly : Obligations.SetZeroWritesPositionOnly :=
  fun _ b => ⟨fun _ => rfl, exec_whenActive_active (bodyAfter_setZero b),
    exec_whenActive_unconstructed (bodyAfter_setZero b)⟩

/-- Every query is one operation: it answers its word with a value read off the registers. -/
theorem bodyAfter_query {i : Instr} (hi : isQuery i = true) :
    ∃ value : Engine p → BitVec p.rdataWidth,
      ∀ b, bodyAfter i b = b.whenActive fun b => b.answer (encodeWord i) (value b.eng) := by
  cases i with
  | getPosition => exact ⟨positionData, fun _ => rfl⟩
  | getDirection => exact ⟨directionData, fun _ => rfl⟩
  | getPeriod => exact ⟨periodData, fun _ => rfl⟩
  | getDiagnostics => exact ⟨diagnosticsData, fun _ => rfl⟩
  | setZero | construct | destroy | edgeA | edgeB => simp [isQuery] at hi

/-- Settles O38: a query's error adds no record, and its answer adds the one record that OBS_SINK asks for. -/
theorem queriesWriteNoRegister : Obligations.QueriesWriteNoRegister := by
  intro p b i hi
  obtain ⟨value, query⟩ := bodyAfter_query (p := p) hi
  cases hl : b.eng.life with
  | unconstructed =>
    exact ⟨_, exec_whenActive_unconstructed (query b) hl, rfl, [], by simp, by simp, by simp⟩
  | active =>
    refine ⟨_, exec_query_active (query b) hl, rfl, _, rfl, ?_, fun sink => by simp [sink]⟩
    split <;> simp [isObs]

end Sys2Proof.Machine
end

section
/-! PROOFS. 44_lifecycle.md: the lifecycle's instructions that write no register, namely CONSTRUCT with equal pins (R192),
CONSTRUCT while Active (R193) and DESTROY when Unconstructed (R195). -/

namespace Sys2Proof.Machine

variable {p : Params}

theorem Body.construct_equalPins {b : Body p} (h : b.eng.life = .unconstructed) (pin : BitVec p.pinIdWidth) :
    b.construct pin pin = b.raise .hwUnavailable := by
  cases b.construct_cases pin pin with
  | equalPins _ _ eq => exact eq
  | whileActive life _ => simp [h] at life
  | deniedA _ pins | deniedB _ pins | succeeds _ pins => exact absurd rfl pins

/-- Settles O43: the equal-pin check raises the error before any claim. -/
theorem constructWithEqualPins : Obligations.ConstructWithEqualPins := by
  intro p b pin hl
  rw [exec_eq, bodyAfter, Body.construct_equalPins hl]
  rfl

/-- Settles O44: the lifecycle check raises the error before the pins are compared. -/
theorem constructWhileActive : Obligations.ConstructWhileActive := by
  intro p b pinA pinB hl
  rw [exec_eq, bodyAfter, Body.construct_active hl]
  rfl

/-- Settles O46: DESTROY is then its response alone. -/
theorem destroyWhenUnconstructed : Obligations.DestroyWhenUnconstructed := by
  intro p b hl
  rw [exec_eq, bodyAfter, Body.destroy_unconstructed hl]
  rfl

end Sys2Proof.Machine
end

section
/-! PROOFS. 60_exceptions.md: the status of a host transaction and the words outside the opcode map (R210, R215, R217), and cycles
that accept nothing (R232). -/

namespace Sys2Proof.Machine

variable {p : Params}

/-! ### Accepted words outside the opcode map (60_exceptions.md R215) -/

/-- The state a transaction runs in has the registers and registrations of before, and the acceptance as its only output. -/
theorem fetch_transaction {b b' : Body p} {port : Port} {w : TxWord} {d : BitVec p.wdataWidth}
    (hf : fetch b = .transaction port w d b') :
    b'.eng = b.eng ∧ b'.edgeSource = b.edgeSource ∧ b'.out = ⟨some port, none, []⟩ := by
  cases fetch_cases b with
  | noCycle _ eq => simp [eq] at hf
  | reset _ _ _ _ eq => simp [eq] at hf
  | nothing _ _ _ _ _ eq => simp [eq] at hf
  | transaction _ _ _ _ _ _ _ _ _ _ eq =>
    obtain ⟨rfl, -, -, rfl⟩ := Fetched.transaction.inj (eq.symm.trans hf)
    exact ⟨rfl, rfl, rfl⟩

/-- The words of the opcode map that a port has a meaning for (30_encoding.md R80). -/
def OwnWord : Port → TxWord → Prop
  | .host, w => HostWord w
  | .edgeA, w => EdgeWordOf .A w
  | .edgeB, w => EdgeWordOf .B w

theorem hostWord_iff (w : TxWord) :
    HostWord w ↔ w = 0x00 ∨ w = 0x01 ∨ w = 0x02 ∨ w = 0x03 ∨ w = 0x40 ∨ w = 0x41 ∨ w = 0x42 := by
  revert w; decide

theorem edgeWordOf_of_high_bits (w : TxWord) :
    (w.extractLsb' 2 6 = 0b100000 → EdgeWordOf .A w) ∧ (w.extractLsb' 2 6 = 0b100001 → EdgeWordOf .B w) := by
  revert w; decide

theorem ownWord_of_decode {port : Port} {w : TxWord} {d : BitVec p.wdataWidth} {i : Instr}
    (h : decode p port w d = .ok i) : OwnWord port w := by
  rw [decoderIsTheOpcodeMap] at h
  rcases h with ⟨rfl, hword⟩ | ⟨rfl, hhigh, -⟩ | ⟨rfl, hhigh, -⟩
  · rw [OwnWord, hostWord_iff]
    tauto
  · exact (edgeWordOf_of_high_bits w).1 hhigh
  · exact (edgeWordOf_of_high_bits w).2 hhigh

/-- The step of a word that its port does not own: the host gets its answer, and nothing else happens. -/
theorem step_of_not_ownWord {b b' : Body p} {port : Port} {w : TxWord} {d : BitVec p.wdataWidth}
    (hf : fetch b = .transaction port w d b') (hw : ¬ OwnWord port w) :
    step ⟨p, b⟩ =
      .next ⟨p, { b' with out := ⟨some port, if port = .host then some ⟨.illegal, 0⟩ else none, []⟩ }⟩ := by
  obtain ⟨-, -, hout⟩ := fetch_transaction hf
  cases hd : decode p port w d with
  | ok i => exact absurd (ownWord_of_decode hd) hw
  | error e =>
    have hs : step ⟨p, b⟩ = .next ⟨p, b'.illegalWord port⟩ := by simp [step, hf, hd]
    rw [hs]
    cases port with
    | host => simp [Body.illegalWord, Body.raise, Body.respond, hout]
    | edgeA => simp [Body.illegalWord, ← hout]
    | edgeB => simp [Body.illegalWord, ← hout]

/-- Settles O8: on each port the step of a word that the port does not own. -/
theorem illegalWordsChangeNothing : Obligations.IllegalWordsChangeNothing := by
  intro p b b' port w wdata hf
  obtain ⟨heng, hsource, -⟩ := fetch_transaction hf
  refine ⟨?_, ?_, ?_⟩
  · rintro rfl hw
    exact ⟨step_of_not_ownWord hf hw, heng, hsource⟩
  · rintro rfl hw
    exact ⟨step_of_not_ownWord hf hw, heng, hsource⟩
  · rintro rfl hw
    exact ⟨step_of_not_ownWord hf hw, heng, hsource⟩

/-! ### Cycles that accept nothing (60_exceptions.md R232) -/

/-- Settles O10: of the things a cycle can bring, only an idle one is left, and it only drops the last output. -/
theorem idleKeepsAllState : Obligations.IdleKeepsAllState := by
  refine fun p b => ⟨fun hc => ?_, fun c rest hc hr hidle => ⟨_, step_eq b, ?_⟩⟩
  · simp [step_eq, stepBody, fetch, hc, Outputs.silent]
  · cases fetch_cases b with
    | noCycle cycles => simp [hc] at cycles
    | reset _ _ cycles rst =>
      obtain ⟨rfl, -⟩ := List.cons.inj (hc.symm.trans cycles)
      simp [hr] at rst
    | nothing _ _ _ _ _ eq => simp [stepBody, eq, Outputs.silent]
    | transaction _ _ cycles _ port accept _ _ _ taken =>
      obtain ⟨rfl, -⟩ := List.cons.inj (hc.symm.trans cycles)
      have valid : b.valid port = true := by simp [← Ports.take_isSome port (c.inputs b.inp.tick), taken]
      simp [accept, valid] at hidle

/-! ### The checks of a host transaction (60_exceptions.md R210, R217) -/

/-- The host operation that leads from `b` to `t` ends with a status, and an error writes no register (60_exceptions.md R210). -/
def EndsWith (st : Status) (b t : Body p) : Prop :=
  ∃ r, t.out.response = some r ∧ r.status = st ∧ (r.status ≠ .ok → r.rdata = 0 ∧ t.eng = b.eng)

theorem EndsWith.of_ok {b t : Body p} {v : BitVec p.rdataWidth} (h : t.out.response = some ⟨.ok, v⟩) : EndsWith .ok b t :=
  ⟨_, h, rfl, fun hok => absurd rfl hok⟩

theorem EndsWith.of_raise {b t : Body p} (e : Status) (h : t.eng = b.eng) : EndsWith e b (t.raise e) :=
  ⟨⟨e, 0⟩, rfl, rfl, fun _ => ⟨rfl, h⟩⟩

/-- The lifecycle check of the queries and SET_ZERO (43_host_ops.md R160). -/
theorem Body.whenActive_endsWith {f : Body p → Body p} {b : Body p} {v : BitVec p.rdataWidth}
    (h : (f b).out.response = some ⟨.ok, v⟩) :
    EndsWith (if b.eng.life = .unconstructed then .errState else .ok) b (b.whenActive f) := by
  cases hl : b.eng.life with
  | active => simpa [Body.whenActive_active hl] using EndsWith.of_ok h
  | unconstructed => simpa [Body.whenActive_unconstructed hl] using EndsWith.of_raise .errState rfl

/-- The checks of CONSTRUCT: lifecycle, equal pins, claim of pin A, claim of pin B (44_lifecycle.md R190 to R193). -/
theorem Body.construct_endsWith (pinA pinB : BitVec p.pinIdWidth) (b : Body p) :
    EndsWith
      (if b.eng.life = .active then .errState
        else if pinA = pinB then .hwUnavailable
        else if b.inp.grantA = false then .hwUnavailable
        else if b.inp.grantB = false then .hwUnavailable
        else .ok) b (b.construct pinA pinB) := by
  cases b.construct_cases pinA pinB with
  | whileActive life eq =>
    rw [eq]
    simpa [life] using EndsWith.of_raise .errState rfl
  | equalPins life pins eq =>
    rw [eq]
    simpa [life, pins] using EndsWith.of_raise .hwUnavailable rfl
  | deniedA life pins grantA eq =>
    rw [eq]
    simpa [life, pins, grantA] using EndsWith.of_raise .hwUnavailable (b.claim_eng pinA false)
  | deniedB life pins grantA grantB eq =>
    rw [eq]
    simp only [life, pins, grantA, grantB, reduceCtorEq, if_true, if_false]
    exact .of_raise .hwUnavailable (by simp)
  | succeeds life pins grantA grantB eq =>
    rw [eq]
    simp only [life, pins, grantA, grantB, reduceCtorEq, if_false]
    exact .of_ok rfl

/-- The halves of the write data fit their fields, so as operands they are equal exactly when they are equal numbers. -/
theorem pinOperand_fields_inj (d : BitVec p.wdataWidth) :
    pinOperand p (pinAField p d) = pinOperand p (pinBField p d) ↔
      d.toNat % 2 ^ p.pinIdWidth = d.toNat / 2 ^ p.pinIdWidth := by
  rw [← pinAField_eq_mod, ← pinBField_eq_div]
  simp only [pinOperand, pinAField, pinBField, BitVec.ofNat_toNat, BitVec.setWidth_eq, BitVec.toNat_inj]

/-- What a legal host word decodes to ends with the status that the checks give it. -/
theorem bodyAfter_endsWith_statusOf {w : TxWord} (hw : HostWord w) (d : BitVec p.wdataWidth) (b : Body p) :
    ∃ i, decode p .host w d = .ok i ∧ EndsWith (statusOf b w d) b (bodyAfter i b) := by
  rw [hostWord_iff] at hw
  rcases hw with rfl | rfl | rfl | rfl | rfl | rfl | rfl
  · exact ⟨.getPosition, rfl, Body.whenActive_endsWith (by rw [Body.answer_out])⟩
  · exact ⟨.getDirection, rfl, Body.whenActive_endsWith (by rw [Body.answer_out])⟩
  · exact ⟨.getPeriod, rfl, Body.whenActive_endsWith (by rw [Body.answer_out])⟩
  · exact ⟨.getDiagnostics, rfl, Body.whenActive_endsWith (by rw [Body.answer_out])⟩
  · exact ⟨.setZero, rfl, Body.whenActive_endsWith (by rw [Body.respond_out])⟩
  · refine ⟨_, decode_construct d, ?_⟩
    simpa [statusOf, pinOperand_fields_inj, bodyAfter] using
      Body.construct_endsWith (pinOperand p (pinAField p d)) (pinOperand p (pinBField p d)) b
  · exact ⟨.destroy, rfl, EndsWith.of_ok b.destroy_response⟩

/-- Settles O15: an illegal word fails the first check, and a legal one ends with the status its operation's checks give. -/
theorem hostChecksRunInOrder : Obligations.HostChecksRunInOrder := by
  intro p b b' w wdata hf
  obtain ⟨heng, -, -⟩ := fetch_transaction hf
  by_cases hw : HostWord w
  · obtain ⟨i, hd, r, response, status, error⟩ := bodyAfter_endsWith_statusOf hw wdata b'
    have hstep : step ⟨p, b⟩ = .next ⟨p, bodyAfter i b'⟩ := (step_of_fetch_transaction hf hd).trans (exec_eq i b')
    exact ⟨_, r, hstep, response, status, heng ▸ error⟩
  · exact ⟨_, ⟨.illegal, 0⟩, step_of_not_ownWord hf hw, rfl, by simp [statusOf, hw], fun _ => ⟨rfl, heng⟩⟩

end Sys2Proof.Machine
end

section
/-! PROOFS. 60_exceptions.md: the time input along a run (R224), the observability records of a step (R230), and what the host's
duties give it (R225). -/

namespace Sys2Proof.Machine

variable {p : Params}

/-! ### The time input (60_exceptions.md R224) -/

theorem stepBody_inp_of_fetch_transaction {b b' : Body p} {port : Port} {w : TxWord} {d : BitVec p.wdataWidth}
    (hf : fetch b = .transaction port w d b') : (stepBody b).inp = b'.inp := by
  cases hd : decode p port w d with
  | ok i => simp [stepBody, hf, hd]
  | error e => simp [stepBody, hf, hd]

/-- A step adds its cycle's ticks, and none when no cycle is left. -/
theorem stepBody_tick (b : Body p) :
    (stepBody b).inp.tick = b.inp.tick + b.cycles.head?.elim 0 Cycle.elapsed := by
  cases fetch_cases b with
  | noCycle cycles eq => simp [stepBody, eq, cycles]
  | reset c rest cycles rst => simp [stepBody_of_rst cycles rst, cycles, Cycle.inputs]
  | nothing c rest cycles _ _ eq => simp [stepBody, eq, cycles, Cycle.inputs]
  | transaction c rest cycles _ _ _ _ _ _ _ eq =>
    simp [stepBody_inp_of_fetch_transaction eq, cycles, Cycle.inputs]

theorem Runs.tick_le {n : Nat} {b : Body p} {t : State} (h : Runs n ⟨p, b⟩ t) : b.inp.tick ≤ t.body.inp.tick := by
  induction n generalizing b with
  | zero => rw [runs_zero.mp h]
  | succ n ih =>
    calc b.inp.tick ≤ (stepBody b).inp.tick := by rw [stepBody_tick]; exact Nat.le_add_right _ _
      _ ≤ t.body.inp.tick := ih (runs_succ.mp h)

/-- Settles O13: no step takes ticks back, and NOW is the tick count as a TS_WIDTH-bit number. -/
theorem timeNeverDecreases : Obligations.TimeNeverDecreases :=
  fun _ _ _ h => ⟨h.tick_le, BitVec.toNat_ofNat _ _⟩

/-! ### The observability records of a step (60_exceptions.md R230) -/

/-- The step of an instruction, with the registers and the output that the instruction starts from. -/
theorem stepBody_of_nextInstr {b : Body p} {i : Instr} (h : nextInstr ⟨p, b⟩ = some i) :
    ∃ b' : Body p, b'.eng = b.eng ∧ b'.out.emitted = [] ∧ stepBody b = bodyAfter i b' := by
  cases hf : fetch b with
  | reset b' => simp [nextInstr, hf] at h
  | idle b' => simp [nextInstr, hf] at h
  | transaction port w d b' =>
    obtain ⟨heng, -, hout⟩ := fetch_transaction hf
    cases hd : decode p port w d with
    | error e => simp [nextInstr, hf, hd] at h
    | ok j =>
      obtain rfl : j = i := by simpa [nextInstr, hf, hd] using h
      exact ⟨b', heng, by rw [hout], by simp [stepBody, hf, hd]⟩

@[simp] theorem Body.illegalWord_emitted (b : Body p) (port : Port) :
    (b.illegalWord port).out.emitted = b.out.emitted := by
  cases port <;> rfl

theorem stepBody_emitted_of_no_instr {b : Body p} (h : nextInstr ⟨p, b⟩ = none) : (stepBody b).out.emitted = [] := by
  cases fetch_cases b with
  | noCycle _ eq => simp [stepBody, eq, Outputs.silent]
  | reset c rest cycles rst => simp [stepBody_of_rst cycles rst, Outputs.silent]
  | nothing _ _ _ _ _ eq => simp [stepBody, eq, Outputs.silent]
  | transaction _ _ _ _ port _ w d _ _ eq =>
    cases hd : decode p port w d with
    | ok i => simp [nextInstr, eq, hd] at h
    | error e => simp [stepBody, eq, hd]

/-- The observability records among what was emitted. -/
def Outputs.records (o : Outputs p) : List (Emission p) := o.emitted.filter isObs

/-- Claims and releases are no observability records. -/
theorem bodyAfter_records_of_not_isQuery {i : Instr} (hi : isQuery i = false) (b : Body p) :
    (bodyAfter i b).out.records = b.out.records := by
  cases i with
  | getPosition | getDirection | getPeriod | getDiagnostics => simp [isQuery] at hi
  | edgeA | edgeB => rfl
  | setZero =>
    rw [bodyAfter_setZero]
    cases hl : b.eng.life with
    | active => rw [Body.whenActive_active hl]; rfl
    | unconstructed => rw [Body.whenActive_unconstructed hl]; rfl
  | construct pinA pinB =>
    rw [bodyAfter]
    cases b.construct_cases (pinOperand p pinA) (pinOperand p pinB) with
    | whileActive _ eq | equalPins _ _ eq | deniedA _ _ _ eq | deniedB _ _ _ _ eq | succeeds _ _ _ _ eq =>
      simp [eq, Outputs.records, isObs]
  | destroy =>
    rw [bodyAfter]
    cases hl : b.eng.life with
    | active => simp [Body.destroy_active hl, Outputs.records, isObs]
    | unconstructed => simp [Body.destroy_unconstructed hl, Outputs.records]

/-- What a query can do. -/
inductive QueryCase (i : Instr) (b : Body p) : Prop where
  | error (life : b.eng.life = .unconstructed) (eq : bodyAfter i b = b.raise .errState)
  | answers (life : b.eng.life = .active) (v : BitVec p.rdataWidth) (eq : bodyAfter i b = b.answer (encodeWord i) v)

theorem query_cases {i : Instr} (hi : isQuery i = true) (b : Body p) : QueryCase i b := by
  obtain ⟨value, query⟩ := bodyAfter_query (p := p) hi
  cases hl : b.eng.life with
  | unconstructed => exact .error hl (by rw [query, Body.whenActive_unconstructed hl])
  | active => exact .answers hl (value b.eng) (by rw [query, Body.whenActive_active hl])

/-- Settles O39: a step without a query has no record, and a query has one exactly when it answers and there is a sink. -/
theorem observabilityRecords : Obligations.ObservabilityRecords := by
  intro p b t ht
  obtain rfl := step_next ht
  cases next : nextInstr ⟨p, b⟩ with
  | none => simp [stepBody_emitted_of_no_instr next]
  | some i =>
    obtain ⟨b', eng, emitted, eq⟩ := stepBody_of_nextInstr next
    cases hi : isQuery i with
    | false =>
      have noRecord : (stepBody b).out.emitted.filter isObs = [] := by
        rw [eq]
        exact (bodyAfter_records_of_not_isQuery hi b').trans (by simp [Outputs.records, emitted])
      exact ⟨fun j _ _ hj hq => by simp [← Option.some.inj hj, hi] at hq, fun _ => noRecord⟩
    | true =>
      cases query_cases hi b' with
      | error _ raised => simp [eq, raised, emitted]
      | answers _ v answer =>
        cases sink : p.obsSink with
        | true => simp [eq, answer, emitted, eng, isObs, hi, sink]
        | false => simp [eq, answer, emitted, sink]

/-! ### A dutiful host (60_exceptions.md R225, 70_reset_and_hazards.md R242 to R252) -/

theorem bodyAfter_ok_of_active {i : Instr} (hi : isQuery i = true ∨ i = .setZero) {b : Body p}
    (hl : b.eng.life = .active) : ∃ v, (bodyAfter i b).out.response = some ⟨.ok, v⟩ := by
  rcases hi with hi | rfl
  · cases query_cases hi b with
    | error life => simp [hl] at life
    | answers _ v eq => exact ⟨v, by rw [eq, Body.answer_out]⟩
  · exact ⟨0, by rw [bodyAfter_setZero, Body.whenActive_active hl, Body.respond_out]⟩

/-- A reset of an Unconstructed engine leaves no registration dangling, whether or not the Edge Source is reset too. -/
theorem registrationsMatch_stepBody {b : Body p}
    (hduty : ∀ c ∈ b.cycles.take 1, c.rst = true → b.eng.life = .unconstructed) (h : RegistrationsMatch ⟨p, b⟩) :
    RegistrationsMatch ⟨p, stepBody b⟩ := by
  rw [registrationsMatch_iff] at h ⊢
  refine stepBody_keeps (I := HoldsPins) (fun c hc hrst => .unconstructed rfl ?_) bodyAfter_holdsPins h
  have noPin := h.registered_unconstructed (hduty c hc hrst)
  split
  · rfl
  · exact noPin

/-- The valid bit stands just above the period, so the test of R248 reads both back (30_encoding.md R79). -/
theorem periodRead_periodData (e : Engine p) :
    periodRead p (periodData e) = if e.periodValid = true then some e.period.toNat else none := by
  have width : p.tsWidth < p.rdataWidth := by simp only [Params.rdataWidth]; omega
  have valid : (periodData e).getLsbD p.tsWidth = e.periodValid := by
    simp only [periodData, BitVec.getLsbD_setWidth, BitVec.getLsbD_append, width]
    simp
  have period : (periodData e).toNat % 2 ^ p.tsWidth = e.period.toNat := by
    rw [periodData_toNat]
    split <;> simp [Nat.mod_eq_of_lt e.period.isLt]
  rw [periodRead, valid, period]

theorem getPeriod_response {b : Body p} {v : BitVec p.rdataWidth}
    (h : (bodyAfter .getPeriod b).out.response = some ⟨.ok, v⟩) : v = periodData b.eng := by
  cases hl : b.eng.life with
  | active =>
    rw [bodyAfter, Body.whenActive_active hl, Body.answer_out] at h
    simpa using h.symm
  | unconstructed => simp [bodyAfter, Body.whenActive_unconstructed hl] at h

/-- Settles O59: the acceptance by each port's order and R78, the duties by an Active engine's OK and an Unconstructed engine's
reset, the period by its valid bit. -/
theorem dutifulHostIsServed : Obligations.DutifulHostIsServed := by
  intro p b t ht
  obtain ⟨offered, -, -, host⟩ := eachPortKeepsItsOrder p b t ht
  obtain ⟨responds, -⟩ := exactlyHostTransactionsRespond p b t ht
  obtain rfl := step_next ht
  refine ⟨fun ha => ⟨((offered .host).1 ha).1, responds.2 ha, ?_⟩, fun ha => ?_, ?_, fun v next hv => ?_⟩
  · rw [Ports.hostPresents, host, if_pos ha]
  · rw [Ports.hostPresents, host, if_neg ha, Ports.hostPresents]
  · rintro ⟨hactive, hreset⟩
    refine ⟨fun i next hi => ?_, registrationsMatch_stepBody hreset⟩
    obtain ⟨b', eng, -, eq⟩ := stepBody_of_nextInstr next
    rw [eq]
    exact bodyAfter_ok_of_active hi (eng ▸ hactive i (by simp [next]) hi)
  · obtain ⟨b', eng, -, eq⟩ := stepBody_of_nextInstr next
    rw [eq] at hv
    rw [getPeriod_response hv, periodRead_periodData, eng]

end Sys2Proof.Machine
end

section
/-! PROOFS. 70_reset_and_hazards.md: a reset of the engine alone. -/

namespace Sys2Proof.Machine

/-- Settles O57: the step is `powerOnReset false`, which gives the power-on registers and keeps the Edge Source; while Active,
the Edge Source holds both pins. -/
theorem resetAloneLeavesPinsRegistered : Obligations.ResetAloneLeavesPinsRegistered := by
  intro p b c rest cycles rst alone active hmatch
  obtain ⟨-, registered⟩ := ((registrationsMatch_iff b).1 hmatch).registered_active active
  have source : (stepBody b).edgeSource = b.edgeSource := by simp [stepBody_of_rst cycles rst, alone]
  refine ⟨stepBody b, step_eq b, ?_, ?_, ?_, ?_⟩
  · rw [stepBody_of_rst cycles rst, Body.powerOnReset_eng, Engine.powerOn]
  · simp [source, registered]
  · simp [source, registered]
  · rw [stepBody_of_rst cycles rst, Body.powerOnReset_out, Outputs.silent]

end Sys2Proof.Machine
end

section
/-! PROOFS. 00_scope.md: a word presented first and accepted next is the one the very next step runs (log entries 14, 15). -/

namespace Sys2Proof.Machine

variable {p : Params}

/-! ### A table word of 8 bits -/

theorem tableWord_toNat (w : TxWord) : tableWord 8 w.toNat = w := by
  rw [tableWord, Nat.mod_eq_of_lt w.isLt, BitVec.ofNat_toNat, BitVec.setWidth_eq]

theorem tableWdata_toNat (w : TxWord) : tableWdata p 8 w.toNat = 0 := by
  have fits : w.toNat % 2 ^ 8 / 256 = 0 := by omega
  rw [tableWdata, fits]
  rfl

theorem State.withFetchWord_toNat (s : State) (w : TxWord) :
    s.withFetchWord 8 w.toNat = ⟨s.params, s.body.presentNext (portOfWord w) w 0⟩ := by
  rw [State.withFetchWord, tableWord_toNat, tableWdata_toNat]

/-! ### The step of a word presented next -/

/-- A word presented first is the one taken, and it leaves what was presented before; an edge word is filled in with the levels
it carries (30_encoding.md R76). -/
theorem Ports.take_presentFirst (port : Port) (w : TxWord) (inp : Inputs) (tick : Nat) (q : Ports p) :
    (q.presentFirst port w 0).take port ((acceptCycle port w inp).inputs tick) = some (w, 0, q) := by
  cases port with
  | host => rfl
  | edgeA => exact (Ports.take_edgeA _ rfl).trans (by rw [Cycle.inputs, acceptCycle, fillLevels_self]; rfl)
  | edgeB => exact (Ports.take_edgeB _ rfl).trans (by rw [Cycle.inputs, acceptCycle, fillLevels_self]; rfl)

theorem step_presentNext {b : Body p} {port : Port} {w : TxWord} {i : Instr} (hd : decode p port w 0 = .ok i) :
    step ⟨p, b.presentNext port w 0⟩ = exec i ⟨p, b.accepted (acceptCycle port w b.inp) b.cycles port b.ports⟩ :=
  step_accepted rfl rfl rfl (Ports.take_presentFirst port w b.inp b.inp.tick b.ports) hd

/-- Settles O16: the word is accepted at its own port in a cycle of no ticks, with the claim answers of before. -/
theorem placedWordRunsNext : Obligations.PlacedWordRunsNext := by
  intro s w i hd
  rw [State.withFetchWord_toNat]
  exact ⟨_, step_presentNext hd, rfl, rfl, rfl, rfl, rfl, rfl, rfl⟩

end Sys2Proof.Machine
end
